-- ==== Sys2Proof/Word.lean ====
section
/-! DEFINITION. The machine's words: the 32-bit Word of rules R6 and R70, the 8-bit byte, and the operand widths. -/

namespace Sys2Proof

/-- A Word: "an unsigned 32-bit integer; all arithmetic on Words is modulo 2^32" (40_word_functions.md R70). Command
words and response words have the same width (00_scope.md R5: `CMDW`, `RESPW`). -/
abbrev Word := BitVec 32

/-- A byte, 8 bits (00_scope.md R6): one cell of BLK, one code unit (`UNIT` of R5). -/
abbrev Byte := BitVec 8

/-- A character's code point: an unsigned 24-bit integer (30_encoding.md R53, `CPW` of R5). -/
abbrev CodePoint := BitVec 24

end Sys2Proof
end

