-- ==== Sys2Proof/Syntax.lean ====
section
/-! DEFINITION. The twelve instructions of spec/opcode_table.json (six commands, six micro-operations), the eight phases that
select what a step does, and the lines of the spec's assembler (30_encoding.md R63, R64). -/

namespace Sys2Proof

/-- One constructor per row of the opcode table. An operand has exactly the width of its field (30_encoding.md R53 to R56:
"All ... values are legal; the field cannot express an out-of-range index"), so every term is an instruction. -/
inductive Instr where
  /-- `INIT`: start a message (45_engine.md R141). -/
  | init
  /-- `PUSH cp`: absorb one character (41_preprocessor.md R91). -/
  | push (cp : CodePoint)
  /-- `FINAL`: end the message (41_preprocessor.md R92). -/
  | final
  /-- `RDW k`: read word `k` of the digest (44_accumulator.md R135). -/
  | rdw (k : BitVec 3)
  /-- `RDHEX i`: read character `i` of the rendered digest (44_accumulator.md R136). -/
  | rdhex (i : BitVec 6)
  /-- `RDSTAT`: read the status view (45_engine.md R142). -/
  | rdstat
  /-- `U_LOADW`: split the block into 16 words (42_scheduler.md R110). -/
  | uLoadw
  /-- `U_EXPAND`: compute one schedule word (42_scheduler.md R111). -/
  | uExpand
  /-- `U_WINIT`: load the working registers (43_round.md R121). -/
  | uWinit
  /-- `U_ROUND`: one round (43_round.md R122). -/
  | uRound
  /-- `U_ACCUM`: add the working registers into H (44_accumulator.md R131). -/
  | uAccum
  /-- `U_PADLEN`: build the extra padding block (41_preprocessor.md R95). -/
  | uPadlen
  deriving DecidableEq, Repr

/-- The eight values of the register PHASE (10_state.md R14; "All eight codes are used; none is reserved", 30_encoding.md
R58). -/
inductive Phase where
  | idle
  | loadw
  | expand
  | winit
  | round
  | accum
  | padlen
  | fault
  deriving DecidableEq, Repr

/-- A line of the spec's assembler (30_encoding.md R63) or one of its pseudo-instructions (R64), with operands as the
programmer writes them, before any range check. -/
inductive AsmLine where
  | init
  | push (cp : Nat)
  | final
  | rdw (k : Nat)
  | rdhex (i : Nat)
  | rdstat
  /-- `.word w`: a command word as given, legal or not. -/
  | word (w : Nat)
  /-- `pushs "c1 ... cn"`: the code points of a string, untruncated. -/
  | pushs (cps : List Nat)
  /-- `pushb b1, ..., bn`: byte values. -/
  | pushb (bytes : List Nat)
  /-- `digest`: the eight `rdw`. -/
  | digest
  /-- `hexdigest`: the sixty-four `rdhex`. -/
  | hexdigest
  /-- `compute "m"`: `init; pushs "m"; final; hexdigest`. -/
  | compute (cps : List Nat)
  deriving DecidableEq, Repr

end Sys2Proof
end

