-- ==== Sys2Proof/WellFormed.lean ====
section
/-! DEFINITION. Well-formedness: which instructions have a command word the host can issue (30_encoding.md R58), and the
operand ranges of the assembler's lines (30_encoding.md R63, R64). -/

namespace Sys2Proof

/-- The six commands have a command word; "The micro-operations have no command-word encoding; the host cannot issue them"
(30_encoding.md R58). -/
def Instr.isCommand : Instr → Bool
  | .init | .push _ | .final | .rdw _ | .rdhex _ | .rdstat => true
  | .uLoadw | .uExpand | .uWinit | .uRound | .uAccum | .uPadlen => false

/-- The operand ranges of 30_encoding.md R63 and R64: "An operand out of range is an assembler error, not an
instruction." -/
def AsmLine.wellFormed : AsmLine → Bool
  | .init | .final | .rdstat | .digest | .hexdigest => true
  | .push cp => cp < 2 ^ 24
  | .rdw k => k < 8
  | .rdhex i => i < 64
  | .word w => w < 2 ^ 32
  | .pushs cps => cps.all (· < 2 ^ 24)
  | .pushb bytes => bytes.all (· < 256)
  | .compute cps => cps.all (· < 2 ^ 24)

end Sys2Proof
end

