-- ==== Sys2Proof/Decode.lean ====
section
/-! DEFINITION. Command words to instructions and back (30_encoding.md R50 to R60, R65), the PHASE codes that select the
micro-operations (R58), and the expansion of the assembler's lines into words (R63, R64). -/

namespace Sys2Proof

/-! ### Decoding command words -/

/-- Why a command word is illegal (30_encoding.md R59). -/
inductive Illegal where
  /-- `op` is 0x0 or 0x7 .. 0xF. -/
  | unusedOp (op : BitVec 4)
  /-- `op` is legal and a must-be-zero bit is set. -/
  | mustBeZero (op : BitVec 4)
  deriving DecidableEq, Repr

/-- A row of the opcode map of 30_encoding.md R57: "A word w is the instruction of a row if and only if (w and mask) =
match". -/
structure OpRow where
  pattern : Word
  mask : Word
  build : Word → Instr

/-- Does a word match a row of the opcode map? -/
def OpRow.covers (r : OpRow) (w : Word) : Bool := w &&& r.mask == r.pattern

/-- `cp = word[23:0]` (30_encoding.md R56). -/
def cpField (w : Word) : CodePoint := w.extractLsb' 0 24

/-- `k = word[2:0]` (30_encoding.md R56). -/
def kField (w : Word) : BitVec 3 := w.extractLsb' 0 3

/-- `i = word[5:0]` (30_encoding.md R56). -/
def iField (w : Word) : BitVec 6 := w.extractLsb' 0 6

/-- `op = word[31:28]` (30_encoding.md R50). -/
def opField (w : Word) : BitVec 4 := w.extractLsb' 28 4

/-- The six rows of 30_encoding.md R57. -/
def opRows : List OpRow :=
  [ { pattern := 0x10000000#32, mask := 0xFFFFFFFF#32, build := fun _ => .init },
    { pattern := 0x20000000#32, mask := 0xFF000000#32, build := fun w => .push (cpField w) },
    { pattern := 0x30000000#32, mask := 0xFFFFFFFF#32, build := fun _ => .final },
    { pattern := 0x40000000#32, mask := 0xFFFFFFF8#32, build := fun w => .rdw (kField w) },
    { pattern := 0x50000000#32, mask := 0xFFFFFFC0#32, build := fun w => .rdhex (iField w) },
    { pattern := 0x60000000#32, mask := 0xFFFFFFFF#32, build := fun _ => .rdstat } ]

/-- The name of an illegal word's defect (30_encoding.md R59): the opcodes 1 to 6 are the legal ones (R57). -/
def illegalReason (w : Word) : Illegal :=
  if 1#4 ≤ opField w ∧ opField w ≤ 6#4 then .mustBeZero (opField w) else .unusedOp (opField w)

/-- The decoder, total on 32-bit words: "try the six rows of rule R57; if none matches the result is Illegal"
(30_encoding.md R65). It reads nothing but the word (R60). -/
def decode (w : Word) : Except Illegal Instr :=
  match opRows.find? (fun r => r.covers w) with
  | some r => .ok (r.build w)
  | none => .error (illegalReason w)

/-! ### PHASE codes and the micro-operations they select -/

/-- The 3-bit code of a phase (30_encoding.md R58). -/
def phaseCode : Phase → BitVec 3
  | .idle => 0#3
  | .loadw => 1#3
  | .expand => 2#3
  | .winit => 3#3
  | .round => 4#3
  | .accum => 5#3
  | .padlen => 6#3
  | .fault => 7#3

/-- The phase of a 3-bit code (30_encoding.md R58). -/
def phaseOfCode (c : BitVec 3) : Phase :=
  if c = 0#3 then .idle
  else if c = 1#3 then .loadw
  else if c = 2#3 then .expand
  else if c = 3#3 then .winit
  else if c = 4#3 then .round
  else if c = 5#3 then .accum
  else if c = 6#3 then .padlen
  else .fault

/-- The micro-operation a busy phase selects (30_encoding.md R58; 45_engine.md R145); `none` in PH_IDLE and PH_FAULT,
where a step takes a command word. -/
def uopOf : Phase → Option Instr
  | .idle => none
  | .loadw => some .uLoadw
  | .expand => some .uExpand
  | .winit => some .uWinit
  | .round => some .uRound
  | .accum => some .uAccum
  | .padlen => some .uPadlen
  | .fault => none

/-! ### Encoding -/

/-- What selects an instruction: a command word, or a value of PHASE (30_encoding.md R57, R58). -/
inductive Encoding where
  | command (w : Word)
  | phase (p : BitVec 3)
  deriving DecidableEq, Repr

/-- The encoder: `op` in bits 31:28, the operand in the least significant bits, every other bit 0 (30_encoding.md R50 to
R57); a micro-operation's code is its phase (R58). -/
def encode : Instr → Encoding
  | .init => .command 0x10000000#32
  | .push cp => .command (0x20#8 ++ cp)
  | .final => .command 0x30000000#32
  | .rdw k => .command (0x08000000#29 ++ k)
  | .rdhex i => .command (0x1400000#26 ++ i)
  | .rdstat => .command 0x60000000#32
  | .uLoadw => .phase 1#3
  | .uExpand => .phase 2#3
  | .uWinit => .phase 3#3
  | .uRound => .phase 4#3
  | .uAccum => .phase 5#3
  | .uPadlen => .phase 6#3

/-- Both decoders as one: a command word through the opcode map, a value of PHASE through R58. -/
def decodeEncoding : Encoding → Option Instr
  | .command w => (decode w).toOption
  | .phase p => uopOf (phaseOfCode p)

/-- The instruction of the opcode-table row whose bits are `w`, given in `nbits` bits: the micro-operations' rows are 3 bits
wide (one byte), the commands' 32. A command is one 32-bit unit on the port (20_memory.md R39), so the bits of the table's
numbering are the word's own. -/
def decodeTableWord (nbits w : Nat) : Option Instr :=
  if nbits ≤ 8 then
    if w < 8 then decodeEncoding (.phase (BitVec.ofNat 3 w)) else none
  else if w < 2 ^ 32 then decodeEncoding (.command (BitVec.ofNat 32 w)) else none

/-! ### The assembler -/

/-- The command words of an assembler line: `push cp` is `0x20000000 + cp`, and so on (30_encoding.md R63). -/
def pushWord (cp : Nat) : Word := 0x20000000#32 + BitVec.ofNat 32 cp

/-- `rdw k` is `0x40000000 + k` (30_encoding.md R63). -/
def rdwWord (k : Nat) : Word := 0x40000000#32 + BitVec.ofNat 32 k

/-- `rdhex i` is `0x50000000 + i` (30_encoding.md R63). -/
def rdhexWord (i : Nat) : Word := 0x50000000#32 + BitVec.ofNat 32 i

/-- The words a line stands for: R63's table and R64's expansions. -/
def AsmLine.expand : AsmLine → List Word
  | .init => [0x10000000#32]
  | .push cp => [pushWord cp]
  | .final => [0x30000000#32]
  | .rdw k => [rdwWord k]
  | .rdhex i => [rdhexWord i]
  | .rdstat => [0x60000000#32]
  | .word w => [BitVec.ofNat 32 w]
  | .pushs cps => cps.map pushWord
  | .pushb bytes => bytes.map pushWord
  | .digest => (List.range 8).map rdwWord
  | .hexdigest => (List.range 64).map rdhexWord
  | .compute cps => 0x10000000#32 :: cps.map pushWord ++ 0x30000000#32 :: (List.range 64).map rdhexWord

/-- Assembling a line: an operand out of range is an assembler error (30_encoding.md R63). -/
def AsmLine.assemble (l : AsmLine) : Option (List Word) :=
  if l.wellFormed then some l.expand else none

end Sys2Proof
end

