-- ==== Sys2Proof/Machine/State.lean ====
section
/-! DEFINITION. The complete state of one engine instance (10_state.md R10), its reset value (R27), and the reasons a step can
stop. -/

namespace Sys2Proof.Machine

/-- The register ERR: "0 = no fault; 1 = E_ILLEGAL; 2 = E_SEQ; 3 = E_LENOVF" (10_state.md R18). -/
inductive ErrCode where
  | noFault
  | eIllegal
  | eSeq
  | eLenovf
  deriving DecidableEq, Repr

/-- The four register files whose cells can hold no value (10_state.md R22). -/
inductive RegFile where
  | H
  | R
  | W
  | BLK
  deriving DecidableEq, Repr

/-- The state of one engine: "the following and nothing else" (10_state.md R10). A cell of H, R, W or BLK that no rule has
written since reset "holds no value": the spec's own state of the cell, `none` (R22). -/
structure State where
  /-- `H[0..7]`, the digest accumulator (R11). -/
  h : Vector (Option Word) 8
  /-- `R[0..7]` = a, b, c, d, e, f, g, h, the working registers (R12). -/
  r : Vector (Option Word) 8
  /-- `W[0..63]`, the message schedule (R13). -/
  w : Vector (Option Word) 64
  /-- `BLK[0..63]`, the block buffer (R16). -/
  blk : Vector (Option Byte) 64
  /-- `LEN`, the message bit-length counter (R19). -/
  len : BitVec 64
  /-- `PHASE`, the sequencer phase (R14). -/
  phase : Phase
  /-- `T`, the sequencer index (R14). -/
  t : BitVec 6
  /-- `FIN`, the finalisation continuation (R15). -/
  fin : BitVec 2
  /-- `OPEN`, a message is open (R17). -/
  opened : Bool
  /-- `DV`, the digest is valid (R17). -/
  dv : Bool
  /-- `ERR`, the sticky fault code (R18). -/
  err : ErrCode
  /-- `CMDQ`, the command words not yet taken, head first (R24). -/
  cmdq : List Word
  /-- `RESPQ`, the response words not yet removed, oldest first (R25). -/
  respq : List Word
  deriving DecidableEq, Repr

/-- Every cell no rule has written since reset holds no value (10_state.md R22, R27; 70_reset_and_hazards.md R180). -/
def State.reset : State :=
  { h := Vector.replicate 8 none
    r := Vector.replicate 8 none
    w := Vector.replicate 64 none
    blk := Vector.replicate 64 none
    len := 0#64
    phase := .idle
    t := 0#6
    fin := 0#2
    opened := false
    dv := false
    err := .noFault
    cmdq := []
    respq := [] }

/-- The model faults, in the spec's sense of the word: no state reached from reset raises one (70_reset_and_hazards.md R181),
so each is safe. The engine's own faults (60_exceptions.md R162) are not here: taking one is a next state. -/
inductive Fault where
  /-- A rule read a cell that holds no value: "a read of `none` by any rule is a model fault, not a number" (10_state.md
  R22). Raised by RDW, RDHEX, U_LOADW, U_EXPAND, U_WINIT, U_ROUND and U_ACCUM. Safe: the machine stops where the spec gives
  no number. -/
  | noValue (file : RegFile) (index : Nat)
  /-- U_ACCUM found `FIN = 3`: "a model whose FIN type admits 3 treats it as a model fault" (44_accumulator.md R131). Raised
  by U_ACCUM. Safe. -/
  | finThree
  /-- A micro-operation found a pair (PHASE, T) outside the transition table: "Model fault if found; never carry on"
  (93_implementation_defined.md V3; 45_engine.md R146). Raised by the step in a busy phase, before the micro-operation, and by
  U_EXPAND at `T < 16`. Safe. -/
  | outsideTable (phase : Phase) (t : BitVec 6)
  deriving DecidableEq, Repr

/-- The refusals: none of the twelve instructions uses one. -/
inductive Refusal where
  /-- An instruction with no meaning yet, rejected by name in Dispatch. Raised by nothing in this model. Safe. -/
  | notModelled (mnemonic : String)
  deriving DecidableEq, Repr

/-- What one step, or one instruction, answers. -/
abbrev Result := Host.Outcome State Fault Refusal

end Sys2Proof.Machine
end

