-- ==== Sys2Proof/Machine/Operands.lean ====
section
/-! DEFINITION. What the rules make of operands, of LEN and of block bytes: the code unit of a character, `fill`, the big-endian
assembly of words, the length field, the padding bytes, and the rendering of a digest character. -/

namespace Sys2Proof.Machine

/-- `MAXBITS = 2^64 - 8`, the greatest message length in bits the engine accepts (00_scope.md R5). -/
def maxBits : BitVec 64 := 0xFFFFFFFFFFFFFFF8#64

/-- The code unit `u = cp[7:0]`; "cp[23:8] has no effect on any state" (41_preprocessor.md R90). -/
def codeUnit (cp : CodePoint) : Byte := cp.extractLsb' 0 8

/-- `fill = LEN[8:3]`: the number of bytes of the current block already in BLK, and the index of the next one (10_state.md
R19). -/
def fillOf (len : BitVec 64) : BitVec 6 := len.extractLsb' 3 6

/-- Byte `i` (0..7) of the length field, first byte most significant: `BLK[56 + i]` in the last block (20_memory.md R37). -/
def lenByte (len : BitVec 64) (i : Nat) : Byte := len.extractLsb' (8 * (7 - i)) 8

/-- `MemRead(BLK, j, 4)`: four bytes as a word, first byte in bits [31:24] (00_scope.md R7; 20_memory.md R36). -/
def wordOfBytes (b0 b1 b2 b3 : Byte) : Word := b0 ++ b1 ++ b2 ++ b3

/-- Word `i` of a block: `BLK[4i] || BLK[4i+1] || BLK[4i+2] || BLK[4i+3]` (20_memory.md R36). -/
def blockWord (b : Vector Byte 64) (i : Fin 16) : Word :=
  wordOfBytes b[4 * i.val] b[4 * i.val + 1] b[4 * i.val + 2] b[4 * i.val + 3]

/-- The cells FINAL leaves in BLK (41_preprocessor.md R92): `0x80` at `fill`, then zeros, and in cells 56..63 the length
when it fits (`fill <= 55`). Cells below `fill` keep what they hold. -/
def finalBlock (blk : Vector (Option Byte) 64) (fill : BitVec 6) (len : BitVec 64) : Vector (Option Byte) 64 :=
  Vector.ofFn fun j =>
    if j.val < fill.toNat then blk[j]
    else if j.val = fill.toNat then some 0x80#8
    else if fill.toNat ≤ 55 ∧ 56 ≤ j.val then some (lenByte len (j.val - 56))
    else some 0x00#8

/-- The cells U_PADLEN leaves in BLK: 56 zeros and the length (41_preprocessor.md R95). -/
def padlenBlock (len : BitVec 64) : Vector (Option Byte) 64 :=
  Vector.ofFn fun j => if j.val < 56 then some 0x00#8 else some (lenByte len (j.val - 56))

/-- The word of H that holds digest character `i`: `i div 8` (44_accumulator.md R134). -/
def hexWordIndex (i : BitVec 6) : BitVec 3 := i.extractLsb' 3 3

/-- The nibble of that word: bits `[31 - 4(i mod 8) : 28 - 4(i mod 8)]` (44_accumulator.md R134). -/
def nibbleOf (v : Word) (i : BitVec 6) : BitVec 4 := v.extractLsb' (28 - 4 * (i.toNat % 8)) 4

/-- `chr(nib)`: `0x30 + nib` for 0..9 and `0x57 + nib` for 10..15 (44_accumulator.md R134). -/
def hexChar (nib : BitVec 4) : Byte :=
  if nib ≤ 9#4 then 0x30#8 + nib.setWidth 8 else 0x57#8 + nib.setWidth 8

end Sys2Proof.Machine
end

