-- ==== Sys2Proof/Machine/Flags.lean ====
section
/-! DEFINITION. The views of the control state: `fill`, busy, the three output lines, the ERR codes, and the STATUS word. The
engine has no condition codes (10_state.md R17). -/

namespace Sys2Proof.Machine

/-- `fill` of the current state (10_state.md R19). -/
def State.fill (s : State) : BitVec 6 := fillOf s.len

/-- Busy: PHASE is one of the six busy phases (00_scope.md section 8; 10_state.md R26). -/
def isBusy : Phase → Bool
  | .idle | .fault => false
  | .loadw | .expand | .winit | .round | .accum | .padlen => true

/-- The output line `busy` (10_state.md R26). -/
def State.busyLine (s : State) : Bool := isBusy s.phase

/-- The output line `dv` (10_state.md R26). -/
def State.dvLine (s : State) : Bool := s.dv

/-- The output line `err`: ERR is not 0 (10_state.md R26). -/
def State.errLine (s : State) : Bool := s.err ≠ .noFault

/-- The 2-bit code of ERR (10_state.md R18). -/
def errBits : ErrCode → BitVec 2
  | .noFault => 0#2
  | .eIllegal => 1#2
  | .eSeq => 2#2
  | .eLenovf => 3#2

/-- `STATUS = zext_32(FILL << 8 | PHASE << 4 | ERR << 2 | DV << 1 | OPEN)` (10_state.md R20; 45_engine.md R142): bits
31:14 and 7 are 0. -/
def State.status (s : State) : Word :=
  (s.fill.setWidth 32 <<< 8) ||| ((phaseCode s.phase).setWidth 32 <<< 4) ||| ((errBits s.err).setWidth 32 <<< 2)
    ||| ((BitVec.ofBool s.dv).setWidth 32 <<< 1) ||| (BitVec.ofBool s.opened).setWidth 32

end Sys2Proof.Machine
end

