-- ==== Sys2Proof/Machine/Ops.lean ====
section
/-! DEFINITION. The named operations the meanings share: reading cells of a register file, answering a command, taking a
fault, and the reset event. -/

namespace Sys2Proof.Machine

/-! ### Reading register files -/

/-- Read cell `i` of a register file and go on with its value; "a read of `none` by any rule is a model fault, not a number"
(10_state.md R22). -/
def readCell {α : Type} {n : Nat} (file : RegFile) (v : Vector (Option α) n) (i : Fin n) (k : α → Result) : Result :=
  match v[i] with
  | some x => k x
  | none => .fault (.noValue file i.val)

/-- The index of the first cell that holds no value, if there is one. -/
def firstEmpty {α : Type} {n : Nat} (v : Vector (Option α) n) : Option Nat :=
  v.toList.findIdx? fun o => o.isNone

/-- Read every cell of a register file and go on with the values; a model fault if some cell holds none: "not a
number" (10_state.md R22; 93_implementation_defined.md V1). -/
def readAll {α : Type} [Inhabited α] {n : Nat} (file : RegFile) (v : Vector (Option α) n) (k : Vector α n → Result) : Result :=
  match firstEmpty v with
  | some i => .fault (.noValue file i)
  | none => k (Vector.ofFn fun i => v[i].getD default)

/-- A register file every cell of which holds the given value. -/
def held {α : Type} {n : Nat} (v : Vector α n) : Vector (Option α) n := Vector.ofFn fun i => some v[i]

/-! ### Responses and faults -/

/-- `respond(v)`: append a word at the tail of RESPQ (10_state.md R25; 00_scope.md R7). -/
def State.respond (s : State) (v : Word) : State := { s with respq := s.respq ++ [v] }

/-- `raise Fault(code)`, the only trap-entry action: ERR takes the code if it is 0, PHASE becomes PH_FAULT, "and nothing
else" (60_exceptions.md R163). The word that raised it has been taken already. -/
def State.raiseFault (s : State) (code : ErrCode) : State :=
  { s with err := if s.err = .noFault then code else s.err, phase := .fault }

/-- The reset event, "one atomic transition to the reset state" and the only exit from PH_FAULT: there is no return from a
fault (60_exceptions.md R167; 70_reset_and_hazards.md R180). -/
def State.resetEvent (_ : State) : State := State.reset

end Sys2Proof.Machine
end

