-- ==== Sys2Proof/Machine/WordFunctions.lean ====
section
/-! DEFINITION. The pure functions on Words that the micro-operations are built from (40_word_functions.md R70 to R82). The
hardware performs no other arithmetic on Words (R83). -/

namespace Sys2Proof.Machine

/-- `add32(x, y)`: the sum modulo 2^32 (40_word_functions.md R71). Sums of more terms are nested: "reducing after every
partial sum equals reducing once at the end". -/
def add32 (x y : Word) : Word := x + y

/-- `rotr(x, n)` for `n` in 1..31: `(x >> n) or ((x << (32 - n)) mod 2^32)` (40_word_functions.md R72). -/
def rotr (x : Word) (n : Nat) : Word := (x >>> n) ||| (x <<< (32 - n))

/-- `shr(x, n)`: the logical right shift, zero fill (40_word_functions.md R73). -/
def shr (x : Word) (n : Nat) : Word := x >>> n

/-- `not32(x)` (40_word_functions.md R74). -/
def not32 (x : Word) : Word := ~~~x

/-- `Ch(x, y, z) = (x and y) xor (not32(x) and z)` (40_word_functions.md R77). -/
def ch (x y z : Word) : Word := (x &&& y) ^^^ (not32 x &&& z)

/-- `Maj(x, y, z) = (x and y) xor (x and z) xor (y and z)` (40_word_functions.md R78). -/
def maj (x y z : Word) : Word := (x &&& y) ^^^ (x &&& z) ^^^ (y &&& z)

/-- `Sum0(x) = rotr(x, 2) xor rotr(x, 13) xor rotr(x, 22)` (40_word_functions.md R79). -/
def sum0 (x : Word) : Word := rotr x 2 ^^^ rotr x 13 ^^^ rotr x 22

/-- `Sum1(x) = rotr(x, 6) xor rotr(x, 11) xor rotr(x, 25)` (40_word_functions.md R80). -/
def sum1 (x : Word) : Word := rotr x 6 ^^^ rotr x 11 ^^^ rotr x 25

/-- `sigma0(x) = rotr(x, 7) xor rotr(x, 18) xor shr(x, 3)` (40_word_functions.md R81). -/
def sigma0 (x : Word) : Word := rotr x 7 ^^^ rotr x 18 ^^^ shr x 3

/-- `sigma1(x) = rotr(x, 17) xor rotr(x, 19) xor shr(x, 10)` (40_word_functions.md R82). -/
def sigma1 (x : Word) : Word := rotr x 17 ^^^ rotr x 19 ^^^ shr x 10

/-- The schedule recurrence `W[t-16] + sigma0(W[t-15]) + W[t-7] + sigma1(W[t-2])` modulo 2^32 (42_scheduler.md R111). -/
def expandWord (w16 w15 w7 w2 : Word) : Word :=
  add32 (add32 (add32 w16 (sigma0 w15)) w7) (sigma1 w2)

/-- `temp1 = add32(h, Sum1(e), Ch(e, f, g), K[T], W[T])` (43_round.md R122). -/
def temp1 (r : Vector Word 8) (k w : Word) : Word :=
  add32 (add32 (add32 (add32 r[7] (sum1 r[4])) (ch r[4] r[5] r[6])) k) w

/-- `temp2 = add32(Sum0(a), Maj(a, b, c))` (43_round.md R122). -/
def temp2 (r : Vector Word 8) : Word := add32 (sum0 r[0]) (maj r[0] r[1] r[2])

/-- The simultaneous register update of one round (43_round.md R122, "In register-file terms"). -/
def roundUpdate (r : Vector Word 8) (k w : Word) : Vector Word 8 :=
  #v[add32 (temp1 r k w) (temp2 r), r[0], r[1], r[2], add32 r[3] (temp1 r k w), r[4], r[5], r[6]]

end Sys2Proof.Machine
end

