-- ==== Sys2Proof/Machine/Accumulator.lean ====
section
/-! DEFINITION. The digest accumulator and read-out: the micro-operation U_ACCUM and the commands RDW and RDHEX
(44_accumulator.md). -/

namespace Sys2Proof.Machine

/-- `H[k] <- add32(H[k], R[k])` for the eight positions (44_accumulator.md R131). -/
def accumulate (h r : Vector Word 8) : Vector Word 8 := Vector.ofFn fun k => add32 h[k] r[k]

/-- U_ACCUM: add R into H and go where FIN says (44_accumulator.md R131): 0 back to PH_IDLE, 1 to PH_PADLEN with FIN left at 1,
2 the digest is complete; "a model whose FIN type admits 3 treats it as a model fault". T is not written; the step performs it
only at `T = 63` (`inTransitionTable`), so T is 63 after it, as in the transition table (45_engine.md R146). -/
def execUAccum (s : State) : Result :=
  readAll .H s.h fun h =>
  readAll .R s.r fun r =>
  if s.fin = 0#2 then .next { s with h := held (accumulate h r), phase := .idle }
  else if s.fin = 1#2 then .next { s with h := held (accumulate h r), phase := .padlen }
  else if s.fin = 2#2 then .next { s with
    h := held (accumulate h r)
    dv := true
    opened := false
    fin := 0#2
    phase := .idle }
  else .fault .finThree

/-- RDW: `E_SEQ` when no digest is valid; else respond with `H[k]` (44_accumulator.md R135). -/
def execRdw (k : BitVec 3) (s : State) : Result :=
  if s.dv = false then .next (s.raiseFault .eSeq)
  else readCell .H s.h ⟨k.toNat, k.isLt⟩ fun v => .next (s.respond v)

/-- RDHEX: `E_SEQ` when no digest is valid; else respond with the character code of digest character `i`, zero-extended
(44_accumulator.md R134, R136). -/
def execRdhex (i : BitVec 6) (s : State) : Result :=
  if s.dv = false then .next (s.raiseFault .eSeq)
  else readCell .H s.h ⟨(hexWordIndex i).toNat, (hexWordIndex i).isLt⟩ fun v =>
    .next (s.respond ((hexChar (nibbleOf v i)).setWidth 32))

end Sys2Proof.Machine
end

