-- ==== Sys2Proof/Machine/Engine.lean ====
section
/-! DEFINITION. The commands INIT and RDSTAT (45_engine.md R141, R142). -/

namespace Sys2Proof.Machine

/-- INIT: H takes the eight constants, LEN, DV and FIN 0, OPEN 1; PHASE and the other files are not written; it never faults
(45_engine.md R141). -/
def execInit (s : State) : Result :=
  .next { s with h := held h0Table, len := 0#64, opened := true, dv := false, fin := 0#2 }

/-- RDSTAT: respond with STATUS; no fault in any state (45_engine.md R142). -/
def execRdstat (s : State) : Result := .next (s.respond s.status)

end Sys2Proof.Machine
end

