-- ==== Sys2Proof/Machine/Preprocessor.lean ====
section
/-! DEFINITION. The message preprocessor: the commands PUSH and FINAL and the micro-operation U_PADLEN
(41_preprocessor.md). -/

namespace Sys2Proof.Machine

/-- PUSH: `E_SEQ` when no message is open, then `E_LENOVF` at `2^64 - 8` bits; else the code unit goes to `BLK[fill]`, LEN
grows by 8, and the 64th byte starts a compression (41_preprocessor.md R91). -/
def execPush (cp : CodePoint) (s : State) : Result :=
  if s.opened = false then .next (s.raiseFault .eSeq)
  else if s.len = maxBits then .next (s.raiseFault .eLenovf)
  else .next { s with
    blk := s.blk.set s.fill.toNat (some (codeUnit cp)) s.fill.isLt
    len := s.len + 8#64
    phase := if s.fill = 63#6 then .loadw else s.phase }

/-- FINAL: `E_SEQ` when no message is open; else pad the block, FIN says whether the length fitted, and the compression
starts (41_preprocessor.md R92). LEN, OPEN and DV are not written here. -/
def execFinal (s : State) : Result :=
  if s.opened = false then .next (s.raiseFault .eSeq)
  else .next { s with
    blk := finalBlock s.blk s.fill s.len
    fin := if s.fill ≤ 55#6 then 2#2 else 1#2
    phase := .loadw }

/-- U_PADLEN: the extra padding block (41_preprocessor.md R95). T is not written; the step performs it only at `T = 63`
(`inTransitionTable`), so T is 63 after it, as in the transition table (45_engine.md R146). -/
def execUPadlen (s : State) : Result :=
  .next { s with blk := padlenBlock s.len, fin := 2#2, phase := .loadw }

end Sys2Proof.Machine
end

