-- ==== Sys2Proof/Machine/Round.lean ====
section
/-! DEFINITION. The round function: the micro-operations U_WINIT and U_ROUND (43_round.md). -/

namespace Sys2Proof.Machine

/-- U_WINIT: R takes a copy of H, T to 0, on to PH_ROUND (43_round.md R121). The step performs it only at `T = 63`
(`inTransitionTable`). -/
def execUWinit (s : State) : Result :=
  readAll .H s.h fun h => .next { s with r := held h, t := 0#6, phase := .round }

/-- U_ROUND: one round with `K[T]` and `W[T]`; at `T = 63` on to PH_ACCUM with T left at 63 (43_round.md R122). -/
def execURound (s : State) : Result :=
  readAll .R s.r fun r =>
  readCell .W s.w ⟨s.t.toNat, s.t.isLt⟩ fun w =>
  .next { s with
    r := held (roundUpdate r (roundConstant s.t) w)
    t := if s.t = 63#6 then s.t else s.t + 1#6
    phase := if s.t = 63#6 then .accum else s.phase }

end Sys2Proof.Machine
end

