-- ==== Sys2Proof/Machine/Scheduler.lean ====
section
/-! DEFINITION. The message scheduler: the micro-operations U_LOADW and U_EXPAND (42_scheduler.md). -/

namespace Sys2Proof.Machine

/-- W after U_LOADW: the first 16 cells hold the words of the block, the others keep what they hold (42_scheduler.md
R110). -/
def loadedSchedule (w : Vector (Option Word) 64) (b : Vector Byte 64) : Vector (Option Word) 64 :=
  Vector.ofFn fun j => if hj : j.val < 16 then some (blockWord b ⟨j.val, hj⟩) else w[j]

/-- U_LOADW: split the block into the first 16 schedule words, T to 16, on to PH_EXPAND (42_scheduler.md R110). The rule
writes T and does not read it; the step performs it only at a T of the transition table (`inTransitionTable`). -/
def execULoadw (s : State) : Result :=
  readAll .BLK s.blk fun b =>
    .next { s with w := loadedSchedule s.w b, t := 16#6, phase := .expand }

/-- U_EXPAND: one schedule word; at `T = 63` on to PH_WINIT with T left at 63 (42_scheduler.md R111). `T < 16` is outside
the transition table (93_implementation_defined.md V3), and the read indices would not exist. -/
def execUExpand (s : State) : Result :=
  if ht : s.t.toNat < 16 then .fault (.outsideTable .expand s.t)
  else
    readCell .W s.w ⟨s.t.toNat - 16, by omega⟩ fun w16 =>
    readCell .W s.w ⟨s.t.toNat - 15, by omega⟩ fun w15 =>
    readCell .W s.w ⟨s.t.toNat - 7, by omega⟩ fun w7 =>
    readCell .W s.w ⟨s.t.toNat - 2, by omega⟩ fun w2 =>
    .next { s with
      w := s.w.set s.t.toNat (some (expandWord w16 w15 w7 w2)) s.t.isLt
      t := if s.t = 63#6 then s.t else s.t + 1#6
      phase := if s.t = 63#6 then .winit else s.phase }

end Sys2Proof.Machine
end

