-- ==== Sys2Proof/Machine/Dispatch.lean ====
section
/-! DEFINITION. exec: one arm per instruction of the opcode table, each a direct call of its meaning. -/

namespace Sys2Proof.Machine

def exec (i : Instr) (s : State) : Host.Outcome State Fault Refusal :=
  match i with
  | .init => Sys2Proof.Machine.execInit s
  | .push cp => Sys2Proof.Machine.execPush cp s
  | .final => Sys2Proof.Machine.execFinal s
  | .rdw k => Sys2Proof.Machine.execRdw k s
  | .rdhex n => Sys2Proof.Machine.execRdhex n s
  | .rdstat => Sys2Proof.Machine.execRdstat s
  | .uLoadw => Sys2Proof.Machine.execULoadw s
  | .uExpand => Sys2Proof.Machine.execUExpand s
  | .uWinit => Sys2Proof.Machine.execUWinit s
  | .uRound => Sys2Proof.Machine.execURound s
  | .uAccum => Sys2Proof.Machine.execUAccum s
  | .uPadlen => Sys2Proof.Machine.execUPadlen s

end Sys2Proof.Machine
end

