-- ==== Sys2Proof/Machine/Sequencer.lean ====
section
/-! DEFINITION. What a step does in each kind of phase (45_engine.md R145; 60_exceptions.md R164), and how the machine's next
instruction is placed. -/

namespace Sys2Proof.Machine

/-- Taking the head word in PH_IDLE: a legal word runs its command, an illegal one raises `E_ILLEGAL` (45_engine.md R145;
60_exceptions.md R162, R165). The word is consumed either way. With CMDQ empty no step is enabled and the engine waits, all
state surviving the wait (60_exceptions.md R175): the state stays as it is. -/
def idleStep (s : State) : Result :=
  match s.cmdq with
  | [] => .next s
  | w :: rest =>
    match decode w with
    | .ok i => exec i { s with cmdq := rest }
    | .error _ => .next (State.raiseFault { s with cmdq := rest } .eIllegal)

/-- Taking the head word in PH_FAULT: RDSTAT is answered, any other word is discarded without effect (60_exceptions.md
R164; 45_engine.md R145). With CMDQ empty the engine waits. -/
def faultStep (s : State) : Result :=
  match s.cmdq with
  | [] => .next s
  | w :: rest =>
    match decode w with
    | .ok .rdstat => exec .rdstat { s with cmdq := rest }
    | _ => .next { s with cmdq := rest }

/-- The pairs (PHASE, T) of the transition table (45_engine.md R146): its "T after" column leaves T at 63 on the way into
PH_WINIT, PH_ACCUM and PH_PADLEN, at 16 to 63 in PH_EXPAND, and at 0 (from reset) or 63 (from an earlier block) on the way into
PH_LOADW; PH_ROUND runs through every T. The rows of PH_IDLE and PH_FAULT say "unchanged" of whatever T is. -/
def inTransitionTable (p : Phase) (t : BitVec 6) : Bool :=
  match p with
  | .idle => true
  | .loadw => t == 0#6 || t == 63#6
  | .expand => decide (16 ≤ t.toNat)
  | .winit => t == 63#6
  | .round => true
  | .accum => t == 63#6
  | .padlen => t == 63#6
  | .fault => true

/-- The step that PHASE selects: "a step is chosen by PHASE alone" (45_engine.md R145). -/
def phaseStep (s : State) : Result :=
  match s.phase with
  | .idle => idleStep s
  | .loadw => exec .uLoadw s
  | .expand => exec .uExpand s
  | .winit => exec .uWinit s
  | .round => exec .uRound s
  | .accum => exec .uAccum s
  | .padlen => exec .uPadlen s
  | .fault => faultStep s

/-- The step rule (45_engine.md R145). A pair (PHASE, T) outside the transition table is a "model fault if found; never carry
on" (93_implementation_defined.md V3): nothing is performed there. -/
def engineStep (s : State) : Result :=
  if inTransitionTable s.phase s.t = true then phaseStep s else .fault (.outsideTable s.phase s.t)

/-- Is a step enabled? Not when the engine waits for a command word (45_engine.md R145). -/
def State.stepEnabled (s : State) : Bool := isBusy s.phase || !s.cmdq.isEmpty

/-- Every cell that holds no value gets a zero: used only to place a micro-operation in a state that has not run up to it. -/
def fillCells {n m : Nat} (v : Vector (Option (BitVec m)) n) : Vector (Option (BitVec m)) n :=
  Vector.ofFn fun i => some (v[i].getD 0#m)

/-- A command word placed where the next step takes it: at the head of CMDQ, in PH_IDLE. -/
def State.placeCommand (s : State) (w : Word) : State := { s with phase := .idle, cmdq := w :: s.cmdq }

/-- A `T` that the transition table has in phase `p`: the given one if it is such, else 16 in PH_EXPAND (where 42_scheduler.md
R110 starts it) and 63 elsewhere. -/
def indexFor (p : Phase) (t : BitVec 6) : BitVec 6 :=
  if inTransitionTable p t = true then t else if p = .expand then 16#6 else 63#6

/-- A micro-operation placed where the next step performs it: PHASE selects it (30_encoding.md R58), `T` is one that the
transition table has there, and the register files that it reads hold values. -/
def State.placePhase (s : State) (p : Phase) : State :=
  let s' : State := { s with phase := p, t := indexFor p s.t }
  match p with
  | .idle => s'
  | .loadw => { s' with blk := fillCells s.blk }
  | .expand => { s' with w := fillCells s.w }
  | .winit => { s' with h := fillCells s.h }
  | .round => { s' with r := fillCells s.r, w := fillCells s.w }
  | .accum => { s' with h := fillCells s.h, r := fillCells s.r }
  | .padlen => s'
  | .fault => s'

/-- The instruction of an opcode-table row placed where the next step runs it. -/
def State.placeTableWord (s : State) (nbits w : Nat) : State :=
  if nbits ≤ 8 then s.placePhase (phaseOfCode (BitVec.ofNat 3 w)) else s.placeCommand (BitVec.ofNat 32 w)

end Sys2Proof.Machine
end

