-- ==== Sys2Proof/Machine/Step.lean ====
section
/-! DEFINITION. The step, and where it takes its next instruction. -/

namespace Sys2Proof.Machine

/-- One step of the engine (45_engine.md R145). -/
def step (s : State) : Host.Outcome State Fault Refusal := engineStep s

/-- The instruction of an opcode-table row stored where `step` takes its next one. -/
def State.withFetchWord (s : State) (nbits w : Nat) : State := s.placeTableWord nbits w

end Sys2Proof.Machine
end

