-- ==== Sys2Proof/Config.lean ====
section
/-! DEFINITION. What the spec leaves to an implementation: the one open parameter a rule uses, `NENG`. (`QDEPTH` is read by
no rule: CMDQ is an unbounded list, 10_state.md R24. The parameters marked fixed in 00_scope.md R5 are widths of types and
literals of the rules; `MAXBITS` is `Machine.maxBits`.) -/

namespace Sys2Proof

/-- How many engine instances a chip carries beyond the first: an uninterpreted constant, since `NENG` is OPEN
(00_scope.md R5; 92_eei_decisions.md D16). -/
opaque Config.extraEngines : Nat

/-- `NENG >= 1`, the number of independent engine instances on a chip (60_exceptions.md R171). -/
def Config.neng : Nat := Config.extraEngines + 1

end Sys2Proof
end

