-- ==== Sys2Proof/Machine/HostPort.lean ====
section
/-! DEFINITION. The host agent: what it may do to the engine, interleaved in any order with the engine's steps
(00_scope.md R9; 70_reset_and_hazards.md R180, R186). -/

namespace Sys2Proof.Machine

/-- One event of the system of engine and host (70_reset_and_hazards.md R186). -/
inductive HostEvent where
  /-- The host appends any 32-bit word to CMDQ, at any time, in any phase. -/
  | append (w : Word)
  /-- The host removes the head of RESPQ. -/
  | takeResponse
  /-- Reset is asserted. -/
  | reset
  /-- The engine takes a step. -/
  | engine
  deriving DecidableEq, Repr

/-- The host appends a word at the tail of CMDQ (10_state.md R24). -/
def State.appendCommand (s : State) (w : Word) : State := { s with cmdq := s.cmdq ++ [w] }

/-- The host removes the head of RESPQ (10_state.md R25); with RESPQ empty there is nothing to remove. -/
def State.removeResponse (s : State) : State := { s with respq := s.respq.tail }

/-- The effect of an event. "The only non-determinism of the whole system is the interleaving of host actions ... with engine
steps" (45_engine.md R145): the interleaving is the order of the events. -/
def HostEvent.apply (e : HostEvent) (s : State) : Result :=
  match e with
  | .append w => .next (s.appendCommand w)
  | .takeResponse => .next s.removeResponse
  | .reset => .next s.resetEvent
  | .engine => step s

/-- A sequence of events, stopping at the first model fault. -/
def runEvents : List HostEvent → State → Result
  | [], s => .next s
  | e :: es, s =>
    match e.apply s with
    | .next s' => runEvents es s'
    | .fault r => .fault r
    | .refused r => .refused r

end Sys2Proof.Machine
end

