-- ==== Sys2Proof/Machine/Chip.lean ====
section
/-! DEFINITION. A chip of `NENG` independent engines: "each leaves reset on its own, idle", and they share only the constant
tables (60_exceptions.md R171; 20_memory.md R46). -/

namespace Sys2Proof.Machine

/-- The complete states of the instances, in some fixed order. -/
abbrev Chip := List State

/-- Every instance as it is after reset. -/
def Chip.reset : Chip := List.replicate Config.neng State.reset

/-- One event at instance `n`; there is nothing at a number that is no instance's. -/
def Chip.eventAt (chip : Chip) (n : Nat) (e : HostEvent) : Host.Outcome Chip Fault Refusal :=
  match chip[n]? with
  | none => .next chip
  | some s =>
    match e.apply s with
    | .next s' => .next (chip.set n s')
    | .fault r => .fault r
    | .refused r => .refused r

end Sys2Proof.Machine
end

