-- ==== Sys2Proof/Machine/Reference.lean ====
section
/-! DEFINITION. What the rules say whole sequences of steps compute, as functions of the message: padding
(41_preprocessor.md R93, R94), the schedule (42_scheduler.md R112), the rounds (43_round.md R123), one block
(44_accumulator.md R132), the digest and its rendering (00_scope.md R8; 44_accumulator.md R133, R134). No step calls them. -/

namespace Sys2Proof.Machine

/-! ### The padded message -/

/-- The bits of a byte, most significant first (20_memory.md R35). -/
def byteBits (b : Byte) : List Bool := (List.range 8).map fun i => b.getLsbD (7 - i)

/-- `bits(m)`: each unit as an 8-bit field, in order (41_preprocessor.md R93). -/
def messageBits (m : List Byte) : List Bool := m.flatMap byteBits

/-- `z`, the least number of zero bits with `L + 1 + z = 448 (mod 512)` (41_preprocessor.md R93). -/
def padZeroBits (l : Nat) : Nat := (959 - l % 512) % 512

/-- `L_64`, the length as 64 bits, most significant first (41_preprocessor.md R93). -/
def lengthBits (l : Nat) : List Bool := (List.range 64).map fun i => (BitVec.ofNat 64 l).getLsbD (63 - i)

/-- `pad(m)` as the document's bit sequence: `bits(m) || 1 || 0^z || L_64` (41_preprocessor.md R93). -/
def padBits (m : List Byte) : List Bool :=
  messageBits m ++ true :: List.replicate (padZeroBits (8 * m.length)) false ++ lengthBits (8 * m.length)

/-- `p = (55 - n) mod 64`, the number of zero bytes (41_preprocessor.md R93). -/
def padZeroBytes (n : Nat) : Nat := (119 - n % 64) % 64

/-- The eight bytes of the length field, `LEN[63:56]` first (20_memory.md R37). -/
def lengthBytes (l : Nat) : List Byte := (List.range 8).map fun i => lenByte (BitVec.ofNat 64 l) i

/-- `pad(m)` as bytes: the units, `0x80`, `p` zero bytes, the length (41_preprocessor.md R93). -/
def padBytes (m : List Byte) : List Byte :=
  m ++ 0x80#8 :: List.replicate (padZeroBytes m.length) 0x00#8 ++ lengthBytes (8 * m.length)

/-- `N = floor((n + 8) / 64) + 1`, the number of blocks (41_preprocessor.md R94). -/
def blockCount (n : Nat) : Nat := (n + 8) / 64 + 1

/-- Block `i` of a byte sequence: bytes `64i .. 64i + 63` (41_preprocessor.md R96). -/
def blockAt (bytes : List Byte) (i : Nat) : Vector Byte 64 := Vector.ofFn fun j => bytes.getD (64 * i + j.val) 0#8

/-- The blocks of `pad(m)`, in order. -/
def messageBlocks (m : List Byte) : List (Vector Byte 64) :=
  (List.range (blockCount m.length)).map (blockAt (padBytes m))

/-! ### One block -/

/-- The first `16 + n` words of the schedule of a block (42_scheduler.md R112). -/
def schedList (b : Vector Byte 64) : Nat → List Word
  | 0 => List.ofFn (blockWord b)
  | n + 1 =>
    let l := schedList b n
    l ++ [expandWord (l.getD n 0#32) (l.getD (n + 1) 0#32) (l.getD (n + 9) 0#32) (l.getD (n + 14) 0#32)]

/-- `sched(B)`, the 64 words of the schedule (42_scheduler.md R112). -/
def sched (b : Vector Byte 64) : Vector Word 64 := Vector.ofFn fun i => (schedList b 48).getD i.val 0#32

/-- `r^n`: the working registers after `n` rounds (43_round.md R123). -/
def roundsUpTo (s : Vector Word 8) (w : Vector Word 64) : Nat → Vector Word 8
  | 0 => s
  | n + 1 => roundUpdate (roundsUpTo s w n) (kTable.toList.getD n 0#32) (w.toList.getD n 0#32)

/-- `rounds(s, w) = r^64` (43_round.md R123). -/
def rounds (s : Vector Word 8) (w : Vector Word 64) : Vector Word 8 := roundsUpTo s w 64

/-- `compress(s, B)`: the State after one block (44_accumulator.md R132). -/
def compress (s : Vector Word 8) (b : Vector Byte 64) : Vector Word 8 :=
  Vector.ofFn fun k => add32 s[k] (rounds s (sched b))[k]

/-! ### The digest -/

/-- The digest as eight words: the fold of `compress` over the blocks, from `H0` (45_engine.md R150). -/
def digestWords (m : List Byte) : Vector Word 8 := (messageBlocks m).foldl compress h0Table

/-- Character `i` of the rendering of a digest (44_accumulator.md R134). -/
def digestChar (d : Vector Word 8) (i : BitVec 6) : Byte :=
  hexChar (nibbleOf (d[(hexWordIndex i).toNat]'((hexWordIndex i).isLt)) i)

/-- `compute(m)`: the 64 characters of the digest (00_scope.md R8). -/
def computeDigest (m : List Byte) : List Byte := (List.range 64).map fun i => digestChar (digestWords m) (BitVec.ofNat 6 i)

end Sys2Proof.Machine
end

