-- ==== Sys2Proof/Machine/Run.lean ====
section
/-! DEFINITION. The run of a finite list of command words from a start state: what happens in it, when it ends, and its
outcome (45_engine.md R152). -/

namespace Sys2Proof.Machine

/-- A run under way: the engine, the words of the list that the host has not appended yet, and the words appended to RESPQ
since the run began, whether or not the host has removed them. -/
structure Run where
  engine : State
  toAppend : List Word
  responses : List Word
  deriving DecidableEq, Repr

/-- The run of the words `ws` from the start state `s`, before anything has happened. -/
def Run.start (s : State) (ws : List Word) : Run := { engine := s, toAppend := ws, responses := [] }

/-- What can happen in a run: "a run with a reset in it is two runs", so no reset (45_engine.md R152). -/
inductive RunEvent where
  /-- The host appends the next word of the list to CMDQ, "in list order". -/
  | append
  /-- The host removes the head of RESPQ. -/
  | takeResponse
  /-- The engine takes a step. -/
  | engine
  deriving DecidableEq, Repr

/-- The host appends the next word of the list; with none left there is nothing to append. -/
def Run.appendNext (r : Run) : Run :=
  match r.toAppend with
  | [] => r
  | w :: ws => { r with engine := r.engine.appendCommand w, toAppend := ws }

/-- The engine has come to `t` by a step: what RESPQ has grown by joins the responses of the run (10_state.md R25: a step only
appends to RESPQ). -/
def Run.stepped (r : Run) (t : State) : Run :=
  { r with engine := t, responses := r.responses ++ t.respq.drop r.engine.respq.length }

/-- The effect of an event on a run. -/
def RunEvent.apply (e : RunEvent) (r : Run) : Host.Outcome Run Fault Refusal :=
  match e with
  | .append => .next r.appendNext
  | .takeResponse => .next { r with engine := r.engine.removeResponse }
  | .engine =>
    match step r.engine with
    | .next t => .next (r.stepped t)
    | .fault c => .fault c
    | .refused c => .refused c

/-- "CMDQ is empty, every word of the list has been appended, and PHASE is PH_IDLE or PH_FAULT" (45_engine.md R152). -/
def Run.ended (r : Run) : Bool := r.engine.cmdq.isEmpty && r.toAppend.isEmpty && !isBusy r.engine.phase

/-- A run under a sequence of events, up to "the first state" in which it has ended: the events after that belong to no run
(45_engine.md R152). Any interleaving of host and engine is such a sequence. -/
def Run.follow : List RunEvent → Run → Host.Outcome Run Fault Refusal
  | [], r => .next r
  | e :: es, r =>
    if r.ended = true then .next r
    else match e.apply r with
      | .next r' => Run.follow es r'
      | .fault c => .fault c
      | .refused c => .refused c

/-- "The run ended well if ERR = 0 at its end" (45_engine.md R152). -/
def Run.endedWell (r : Run) : Bool := r.ended && decide (r.engine.err = .noFault)

/-- The run ended, and not well: its end state "is not a result and nothing is claimed of its H" (45_engine.md R152). -/
def Run.faulted (r : Run) : Bool := r.ended && decide (r.engine.err ≠ .noFault)

/-- "The observable outcome of a run": the words appended to RESPQ in it, in order, and the final values of the output lines
busy, dv, err (45_engine.md R152). -/
def Run.outcome (r : Run) : List Word × Bool × Bool × Bool :=
  (r.responses, r.engine.busyLine, r.engine.dvLine, r.engine.errLine)

end Sys2Proof.Machine
end

