-- ==== Sys2Proof/Safety.lean ====
section
/-! DEFINITION. What counts as safe: answering a next state, the invariant of the reachable states (10_state.md R23), and
states that differ only in cells that hold no value (70_reset_and_hazards.md R181). -/

namespace Sys2Proof.Machine

/-- A result that is a next state: no model fault, no refusal. -/
def Result.isNext (r : Result) : Prop := ∃ t, r = .next t

/-- Every cell of a register file holds a value (10_state.md R22). -/
def allHeld {α : Type} {n : Nat} (v : Vector (Option α) n) : Prop := ∀ i : Fin n, (v[i]).isSome = true

/-- The cells below `k` hold values. -/
def heldBelow {α : Type} {n : Nat} (v : Vector (Option α) n) (k : Nat) : Prop :=
  ∀ i : Fin n, i.val < k → (v[i]).isSome = true

/-- The invariant of the states reachable from reset: items 1 to 5, 7, 9 of 10_state.md R23, the part of item 8 that a state
shows by itself, which T the transition table has in which phase (45_engine.md R146), and which cells hold values in which phase
(70_reset_and_hazards.md R181). -/
structure State.Inv (s : State) : Prop where
  /-- R23 item 1: `LEN[2:0] = 0`. -/
  lenAligned : s.len.extractLsb' 0 3 = 0#3
  /-- R23 item 1: `LEN <= 2^64 - 8`. -/
  lenBound : s.len ≤ maxBits
  /-- R23 item 2: OPEN and DV are never both 1. -/
  flagsExclusive : ¬ (s.opened = true ∧ s.dv = true)
  /-- R23 item 3: FIN is never 3. -/
  finLegal : s.fin ≠ 3#2
  /-- R23 item 3: in PH_IDLE, FIN is 0. -/
  finIdle : s.phase = .idle → s.fin = 0#2
  /-- R23 item 3: FIN = 2 only from PH_LOADW to PH_ACCUM, and PH_PADLEN has FIN = 1. -/
  finPadlen : s.phase = .padlen → s.fin = 1#2
  /-- R23 item 4: ERR is not 0 exactly in PH_FAULT. -/
  errFault : s.err ≠ .noFault ↔ s.phase = .fault
  /-- R23 item 4: in PH_FAULT, FIN is 0. -/
  finFault : s.phase = .fault → s.fin = 0#2
  /-- R23 item 5: a busy engine has a message open. -/
  busyOpen : isBusy s.phase = true → s.opened = true
  /-- R23 items 7 and 8, and R181: H holds values once a message is open or a digest valid. -/
  heldH : s.opened = true ∨ s.dv = true → allHeld s.h
  /-- R23 item 7: an open, idle engine holds the bytes below `fill`. -/
  heldBlkIdle : s.opened = true → s.phase = .idle → heldBelow s.blk s.fill.toNat
  /-- R181: a busy engine holds the whole block. -/
  heldBlkBusy : isBusy s.phase = true → allHeld s.blk
  /-- R23 item 9: in PH_EXPAND, `16 <= T`. -/
  expandIndex : s.phase = .expand → 16 ≤ s.t.toNat
  /-- R146: outside the expansion and the rounds T is 0, from reset, or 63, from the last block. -/
  restIndex : s.phase = .idle ∨ s.phase = .loadw ∨ s.phase = .fault → s.t = 0#6 ∨ s.t = 63#6
  /-- R146: PH_WINIT, PH_ACCUM and PH_PADLEN have `T = 63`. -/
  lastIndex : s.phase = .winit ∨ s.phase = .accum ∨ s.phase = .padlen → s.t = 63#6
  /-- R181: in PH_EXPAND, the schedule words below `T` hold values. -/
  heldWExpand : s.phase = .expand → heldBelow s.w s.t.toNat
  /-- R181: in PH_WINIT and PH_ROUND, the whole schedule holds values. -/
  heldW : s.phase = .winit ∨ s.phase = .round → allHeld s.w
  /-- R181: in PH_ROUND and PH_ACCUM, the working registers hold values. -/
  heldR : s.phase = .round ∨ s.phase = .accum → allHeld s.r

/-- Cell by cell, `v'` holds every value that `v` holds. -/
def cellsAgree {α : Type} {n : Nat} (v v' : Vector (Option α) n) : Prop :=
  ∀ i : Fin n, (v[i]).isSome = true → v'[i] = v[i]

/-- The same control state and streams, and every value the first state holds is held by the second too: the second differs
only in cells that hold no value in the first (70_reset_and_hazards.md R181). -/
structure State.Refines (s s' : State) : Prop where
  h : cellsAgree s.h s'.h
  r : cellsAgree s.r s'.r
  w : cellsAgree s.w s'.w
  blk : cellsAgree s.blk s'.blk
  len : s'.len = s.len
  phase : s'.phase = s.phase
  t : s'.t = s.t
  fin : s'.fin = s.fin
  opened : s'.opened = s.opened
  dv : s'.dv = s.dv
  err : s'.err = s.err
  cmdq : s'.cmdq = s.cmdq
  respq : s'.respq = s.respq

end Sys2Proof.Machine
end

