-- ==== Sys2Proof/Certificates/Slice0/Obligations.lean ====
section
/-! DEFINITION. The statements for the provers: what the spec's numbered rules say each instruction and the whole machine do. -/

open Sys2Proof Sys2Proof.Machine

/-! ### Word functions (40_word_functions.md) -/

/-- R72, with the laws it marks as the spec's own inference: bit `j` of `rotr(x, n)` is bit `(j + n) mod 32` of `x`, for `n` in
1..31; so `rotr` distributes over `xor`, `and` and
`not32` and can be undone. -/
def Obligations.RotateRightMovesBits : Prop :=
  ∀ (x y : Word) (n : Nat), 1 ≤ n → n ≤ 31 →
    (∀ j, j < 32 → (rotr x n).getLsbD j = x.getLsbD ((j + n) % 32)) ∧
    rotr (x ^^^ y) n = rotr x n ^^^ rotr y n ∧ rotr (x &&& y) n = rotr x n &&& rotr y n ∧
    rotr (not32 x) n = not32 (rotr x n) ∧ rotr (rotr x n) (32 - n) = x

/-- R73, R74: `shr` is the floor of `x / 2^n` with zeros coming in, `not32` is `0xFFFFFFFF - x`, the exclusive or with all ones. -/
def Obligations.ShiftAndComplementValues : Prop :=
  ∀ (x : Word) (n : Nat),
    (shr x n).toNat = x.toNat / 2 ^ n ∧
    (∀ j, (shr x n).getLsbD j = (decide (j + n ≤ 31) && x.getLsbD (j + n))) ∧
    (not32 x).toNat = 0xFFFFFFFF - x.toNat ∧ not32 x = x ^^^ 0xFFFFFFFF#32

/-- R71: sums are taken over the integers and reduced modulo 2^32 once; the five-term sum of `temp1`, the four-term sum of the
schedule and the two-term sums of `temp2`. -/
def Obligations.SumsWrapOnce : Prop :=
  (∀ x y : Word, (add32 x y).toNat = (x.toNat + y.toNat) % 2 ^ 32) ∧
  (∀ a b c d : Word, (expandWord a b c d).toNat =
    (a.toNat + (sigma0 b).toNat + c.toNat + (sigma1 d).toNat) % 2 ^ 32) ∧
  (∀ (r : Vector Word 8) (k w : Word), (temp1 r k w).toNat =
    (r[7].toNat + (sum1 r[4]).toNat + (ch r[4] r[5] r[6]).toNat + k.toNat + w.toNat) % 2 ^ 32) ∧
  (∀ r : Vector Word 8, (temp2 r).toNat = ((sum0 r[0]).toNat + (maj r[0] r[1] r[2]).toNat) % 2 ^ 32)

/-- R77, R78, the sentences they mark as the spec's own inference: bit by bit, `Ch` takes the bit of `y` where `x` has 1 and the
bit of `z` where `x` has 0; `Maj` is the majority,
1 exactly when at least two of the three bits are. -/
def Obligations.ChooseAndMajorityBits : Prop :=
  ∀ (x y z : Word) (j : Nat),
    (ch x y z).getLsbD j = (if x.getLsbD j then y.getLsbD j else z.getLsbD j) ∧
    (maj x y z).getLsbD j =
      decide (2 ≤ (x.getLsbD j).toNat + (y.getLsbD j).toNat + (z.getLsbD j).toNat)

/-- R79 to R82: each bit of the four sigma functions is the exclusive or of the bits its rotations (and, in the small ones, its
shift) bring there. -/
def Obligations.SigmaFunctionBits : Prop :=
  ∀ (x : Word) (j : Nat), j < 32 →
    (sum0 x).getLsbD j = ((x.getLsbD ((j + 2) % 32) ^^ x.getLsbD ((j + 13) % 32)) ^^ x.getLsbD ((j + 22) % 32)) ∧
    (sum1 x).getLsbD j = ((x.getLsbD ((j + 6) % 32) ^^ x.getLsbD ((j + 11) % 32)) ^^ x.getLsbD ((j + 25) % 32)) ∧
    (sigma0 x).getLsbD j = ((x.getLsbD ((j + 7) % 32) ^^ x.getLsbD ((j + 18) % 32)) ^^ x.getLsbD (j + 3)) ∧
    (sigma1 x).getLsbD j = ((x.getLsbD ((j + 17) % 32) ^^ x.getLsbD ((j + 19) % 32)) ^^ x.getLsbD (j + 10))

/-- R33, R34: `H0[k]` is the first 32 bits of the fractional part of the square root of the `k`-th prime, `K[t]` of the cube
root of the `t`-th: with `r` the integer root of `p * 2^64` (of `p * 2^96`), the constant is `r` modulo 2^32. -/
def Obligations.ConstantsAreRootFractions : Prop :=
  let primes : List Nat :=
    [2, 3, 5, 7, 11, 13, 17, 19, 23, 29, 31, 37, 41, 43, 47, 53, 59, 61, 67, 71, 73, 79, 83, 89, 97, 101, 103, 107, 109, 113,
     127, 131, 137, 139, 149, 151, 157, 163, 167, 173, 179, 181, 191, 193, 197, 199, 211, 223, 227, 229, 233, 239, 241, 251,
     257, 263, 269, 271, 277, 281, 283, 293, 307, 311]
  (∀ k : Fin 8, ∃ r : Nat, r ^ 2 ≤ primes.getD k 0 * 2 ^ 64 ∧ primes.getD k 0 * 2 ^ 64 < (r + 1) ^ 2 ∧
    h0Table[k].toNat = r % 2 ^ 32) ∧
  (∀ i : Fin 64, ∃ r : Nat, r ^ 3 ≤ primes.getD i 0 * 2 ^ 96 ∧ primes.getD i 0 * 2 ^ 96 < (r + 1) ^ 3 ∧
    kTable[i].toNat = r % 2 ^ 32)

/-! ### Encoding (30_encoding.md) -/

/-- R56, R57, R58: decoding the encoding of an instruction gives it back, for every instruction and every operand value. -/
def Obligations.DecodeEncodeRoundTrip : Prop :=
  ∀ i : Instr, decodeEncoding (encode i) = some i

/-- R57, R65 (command words) and R58 (busy PHASE codes): each legal word, and each busy phase code, has one meaning: whatever decodes
to `i` is the encoding of `i`. -/
def Obligations.EncodeDecodeRoundTrip : Prop :=
  ∀ (e : Encoding) (i : Instr), decodeEncoding e = some i → encode i = e

/-- R57: no word matches two rows of the opcode map. -/
def Obligations.OpcodeRowsDisjoint : Prop :=
  ∀ (w : Word) (r r' : OpRow), r ∈ opRows → r' ∈ opRows → r.covers w = true → r'.covers w = true → r.pattern = r'.pattern

/-- R59: a word is illegal exactly when `op` is 0 or 7 .. 15, or a must-be-zero bit of a legal `op` is set. -/
def Obligations.IllegalWordsCharacterised : Prop :=
  ∀ w : Word, (∃ e, decode w = .error e) ↔
    (let op := w.toNat / 2 ^ 28
     op = 0 ∨ 7 ≤ op ∨
     ((op = 1 ∨ op = 3 ∨ op = 6) ∧ w.toNat % 2 ^ 28 ≠ 0) ∨
     (op = 2 ∧ w.toNat / 2 ^ 24 % 2 ^ 4 ≠ 0) ∨
     (op = 4 ∧ w.toNat % 2 ^ 28 / 2 ^ 3 ≠ 0) ∨
     (op = 5 ∧ w.toNat % 2 ^ 28 / 2 ^ 6 ≠ 0))

/-- 95_test_vectors.md section 3.7 (of R57, R59): eleven sample command words; and, of 30_encoding.md section 4 (R58): PHASE code 4
selects U_ROUND. -/
def Obligations.SampleWordsDecode : Prop :=
  decode 0x10000000#32 = .ok .init ∧ decode 0x20000061#32 = .ok (.push 0x61#24) ∧
  decode 0x20FFFFFF#32 = .ok (.push 0xFFFFFF#24) ∧ decode 0x30000000#32 = .ok .final ∧
  decode 0x40000007#32 = .ok (.rdw 7#3) ∧ decode 0x5000003F#32 = .ok (.rdhex 63#6) ∧
  decode 0x60000000#32 = .ok .rdstat ∧
  decode 0x00000000#32 = .error (.unusedOp 0#4) ∧ decode 0xFFFFFFFF#32 = .error (.unusedOp 15#4) ∧
  decode 0x21000061#32 = .error (.mustBeZero 2#4) ∧ decode 0x40000008#32 = .error (.mustBeZero 4#4) ∧
  decodeTableWord 8 4 = some .uRound

/-- R63: an assembler line with its operand in range is one word, which decodes to the instruction written; out of range it is an
assembler error. -/
def Obligations.AssemblerLinesDecode : Prop :=
  (∀ cp, cp < 2 ^ 24 → ∃ w, (AsmLine.push cp).assemble = some [w] ∧ decode w = .ok (.push (BitVec.ofNat 24 cp))) ∧
  (∀ cp, 2 ^ 24 ≤ cp → (AsmLine.push cp).assemble = none) ∧
  (∀ k, k < 8 → ∃ w, (AsmLine.rdw k).assemble = some [w] ∧ decode w = .ok (.rdw (BitVec.ofNat 3 k))) ∧
  (∀ k, 8 ≤ k → (AsmLine.rdw k).assemble = none) ∧
  (∀ i, i < 64 → ∃ w, (AsmLine.rdhex i).assemble = some [w] ∧ decode w = .ok (.rdhex (BitVec.ofNat 6 i))) ∧
  (∀ i, 64 ≤ i → (AsmLine.rdhex i).assemble = none) ∧
  (∀ w : Nat, w < 2 ^ 32 → ∃ v : Word, (AsmLine.word w).assemble = some [v] ∧ v.toNat = w) ∧
  (∀ w : Nat, 2 ^ 32 ≤ w → (AsmLine.word w).assemble = none) ∧
  (∃ w, AsmLine.init.assemble = some [w] ∧ decode w = .ok .init) ∧
  (∃ w, AsmLine.final.assemble = some [w] ∧ decode w = .ok .final) ∧
  (∃ w, AsmLine.rdstat.assemble = some [w] ∧ decode w = .ok .rdstat)

/-! ### The step rule (45_engine.md R145) -/

/-- R145: in PH_IDLE the step takes the head word off CMDQ and runs the command it decodes to, in the state that is left. -/
def Obligations.StepRunsDecodedCommand : Prop :=
  ∀ (s : State) (w : Word) (rest : List Word) (i : Instr), s.phase = .idle → s.cmdq = w :: rest → decode w = .ok i →
    step s = exec i { s with cmdq := rest }

/-- R145, R58: in a busy phase, at a T that the transition table has there (R146: T 0 or 63 in PH_LOADW, 16 to 63 in PH_EXPAND, any
in PH_ROUND, 63 in the others), the step is the micro-operation that the code of PHASE selects in the opcode table. What the step
does at any other T is statement OutsideTableStops. -/
def Obligations.StepRunsPhaseMicroOp : Prop :=
  ∀ s : State, isBusy s.phase = true →
    (s.phase = .loadw → s.t = 0 ∨ s.t = 63) → (s.phase = .expand → 16 ≤ s.t.toNat) →
    (s.phase = .winit ∨ s.phase = .accum ∨ s.phase = .padlen → s.t = 63) →
    ∃ i, decodeTableWord 8 (phaseCode s.phase).toNat = some i ∧ i.isCommand = false ∧ step s = exec i s

/-- V3 of 93_implementation_defined.md, of R146: "PHASE codes and T values outside the transition table ... Model fault if found; never
carry on": the step performs nothing there, in each of the busy phases that do not run through every T. (Which T the table has in
PH_LOADW, 0 and 63, is read from it by inference: assumption 4.) -/
def Obligations.OutsideTableStops : Prop :=
  ∀ s : State,
    (s.phase = .loadw ∧ s.t ≠ 0 ∧ s.t ≠ 63) ∨ (s.phase = .expand ∧ s.t.toNat < 16) ∨
      ((s.phase = .winit ∨ s.phase = .accum ∨ s.phase = .padlen) ∧ s.t ≠ 63) →
    step s = .fault (.outsideTable s.phase s.t)

/-- R162, R163, R165: taking an illegal word in PH_IDLE consumes it, sets ERR to `E_ILLEGAL` (if it was 0) and PHASE to PH_FAULT,
and nothing else, whatever OPEN, DV and LEN are. -/
def Obligations.IllegalWordFaults : Prop :=
  ∀ (s : State) (w : Word) (rest : List Word) (e : Illegal), s.phase = .idle → s.cmdq = w :: rest → decode w = .error e →
    step s = .next { s with cmdq := rest, phase := .fault, err := if s.err = .noFault then .eIllegal else s.err }

/-- R164, R167: in PH_FAULT, for any number of steps, the engine stays in PH_FAULT with everything as it was but the streams: it
takes one word a step while there are words, and appends exactly one STATUS word for each RDSTAT among them. (A step while the
engine waits changes nothing: assumption 2.) -/
def Obligations.FaultPhaseOnlyAnswersStatus : Prop :=
  ∀ (n : Nat) (s : State), s.phase = .fault →
    core.run n s = .next { s with
      cmdq := s.cmdq.drop n
      respq := s.respq ++ ((s.cmdq.take n).filter (· == 0x60000000#32)).map fun _ => s.status }

/-- R145, R175: with CMDQ empty in PH_IDLE or PH_FAULT no step is enabled: the engine waits, all state surviving. (That the wait is
a step that changes nothing is the model's choice, assumption 2.) -/
def Obligations.EmptyQueueWaits : Prop :=
  ∀ s : State, s.cmdq = [] → (s.phase = .idle ∨ s.phase = .fault) → s.stepEnabled = false ∧ step s = .next s

/-- R145: "In a busy phase a step is always enabled and never looks at CMDQ": the same step is taken whatever the queue holds, and
the queue is left as it is. -/
def Obligations.BusyStepHoldsCommands : Prop :=
  ∀ (s t : State) (q : List Word), isBusy s.phase = true → step s = .next t →
    s.stepEnabled = true ∧ t.cmdq = s.cmdq ∧ step { s with cmdq := q } = .next { t with cmdq := q }

/-- R24: the engine removes command words from the head, one per step, only in PH_IDLE or PH_FAULT, and never reorders, merges,
duplicates or drops the others. (A step while the
engine waits changes nothing: assumption 2.) -/
def Obligations.CommandsTakenFromHead : Prop :=
  ∀ s t : State, step s = .next t →
    t.cmdq = s.cmdq ∧ (isBusy s.phase = true ∨ s.cmdq = []) ∨
    (∃ w, s.cmdq = w :: t.cmdq ∧ (s.phase = .idle ∨ s.phase = .fault))

/-- R146: the only transitions of (PHASE, T): the T a busy phase is left from and the T after it are the table's. (That PH_LOADW is
left only from T 0 or 63 is read from the table by inference: assumption 4.) (A step while the
engine waits changes nothing: assumption 2.) -/
def Obligations.PhaseTransitions : Prop :=
  ∀ s t : State, step s = .next t →
    match s.phase with
    | .idle => t.phase = .idle ∧ t.t = s.t ∨ t.phase = .loadw ∧ t.t = s.t ∨ t.phase = .fault ∧ t.t = s.t
    | .loadw => (s.t = 0#6 ∨ s.t = 63#6) ∧ t.phase = .expand ∧ t.t = 16#6
    | .expand => 16 ≤ s.t.toNat ∧
        (t.phase = .expand ∧ s.t ≠ 63#6 ∧ t.t = s.t + 1 ∨ t.phase = .winit ∧ s.t = 63#6 ∧ t.t = 63#6)
    | .winit => s.t = 63#6 ∧ t.phase = .round ∧ t.t = 0#6
    | .round => t.phase = .round ∧ s.t ≠ 63#6 ∧ t.t = s.t + 1 ∨ t.phase = .accum ∧ s.t = 63#6 ∧ t.t = 63#6
    | .accum => s.t = 63#6 ∧ t.t = 63#6 ∧
        (t.phase = .idle ∧ (s.fin = 0#2 ∨ s.fin = 2#2) ∨ t.phase = .padlen ∧ s.fin = 1#2)
    | .padlen => s.t = 63#6 ∧ t.phase = .loadw ∧ t.t = 63#6
    | .fault => t.phase = .fault ∧ t.t = s.t

/-! ### The commands -/

/-- R141: INIT loads H with the constants, sets OPEN, clears DV, LEN and FIN, and changes nothing else; it answers in every
state. -/
def Obligations.InitStartsMessage : Prop :=
  ∀ s : State, ∃ t, exec .init s = .next t ∧
    (∀ k : Fin 8, t.h[k] = some h0Table[k]) ∧
    t = { s with h := t.h, len := 0, opened := true, dv := false, fin := 0 }

/-- R91: PUSH with a message open and room stores the code unit at cell `fill` and only there, adds 8 to LEN, and goes to PH_LOADW
when `fill` is 63; with no message open it raises `E_SEQ`, at `2^64 - 8` bits `E_LENOVF`, with no other effect. -/
def Obligations.PushAbsorbsCharacter : Prop :=
  ∀ (cp : CodePoint) (s : State),
    (s.opened = true → s.len.toNat ≠ 2 ^ 64 - 8 →
      ∃ t, exec (.push cp) s = .next t ∧
        (∀ j : Fin 64, t.blk[j] =
          if j.val = s.len.toNat / 8 % 64 then some (BitVec.ofNat 8 (cp.toNat % 256)) else s.blk[j]) ∧
        t.len.toNat = (s.len.toNat + 8) % 2 ^ 64 ∧
        t.phase = (if s.len.toNat / 8 % 64 = 63 then .loadw else s.phase) ∧
        t = { s with blk := t.blk, len := t.len, phase := t.phase }) ∧
    (s.opened = false →
      exec (.push cp) s = .next { s with phase := .fault, err := if s.err = .noFault then .eSeq else s.err }) ∧
    (s.opened = true → s.len.toNat = 2 ^ 64 - 8 →
      exec (.push cp) s = .next { s with phase := .fault, err := if s.err = .noFault then .eLenovf else s.err })

/-- R90: "cp[23:8] has no effect on any state": characters whose code points agree in their low 8 bits do the same. -/
def Obligations.PushIgnoresHighBits : Prop :=
  ∀ (cp cp' : CodePoint) (s : State), cp.toNat % 256 = cp'.toNat % 256 → exec (.push cp) s = exec (.push cp') s

/-- R92: FINAL with a message open keeps the cells below `fill`, puts `0x80` at `fill` and zeros after it, and when `fill <= 55` the
length, big-endian, in cells 56 to 63; FIN becomes 2 or 1, PHASE PH_LOADW, and nothing else changes. With no message open it
raises `E_SEQ` with no other effect. -/
def Obligations.FinalPadsBlock : Prop :=
  ∀ s : State,
    (s.opened = true → s.len.toNat / 8 % 64 ≤ 55 →
      ∃ t, exec .final s = .next t ∧
        (∀ j : Fin 64, t.blk[j] =
          if j.val < s.len.toNat / 8 % 64 then s.blk[j]
          else if j.val = s.len.toNat / 8 % 64 then some 0x80
          else if j.val < 56 then some 0x00
          else some (BitVec.ofNat 8 (s.len.toNat / 2 ^ (8 * (63 - j.val))))) ∧
        t = { s with blk := t.blk, fin := 2, phase := .loadw }) ∧
    (s.opened = true → 56 ≤ s.len.toNat / 8 % 64 →
      ∃ t, exec .final s = .next t ∧
        (∀ j : Fin 64, t.blk[j] =
          if j.val < s.len.toNat / 8 % 64 then s.blk[j]
          else if j.val = s.len.toNat / 8 % 64 then some 0x80
          else some 0x00) ∧
        t = { s with blk := t.blk, fin := 1, phase := .loadw }) ∧
    (s.opened = false →
      exec .final s = .next { s with phase := .fault, err := if s.err = .noFault then .eSeq else s.err })

/-- R135: RDW with a valid digest appends `H[k]` to RESPQ and changes nothing else; with none it raises `E_SEQ` with no response. -/
def Obligations.RdwRespondsWord : Prop :=
  ∀ (k : BitVec 3) (s : State),
    (∀ v : Word, s.dv = true → s.h[k.toNat]? = some (some v) →
      exec (.rdw k) s = .next { s with respq := s.respq ++ [v] }) ∧
    (s.dv = false →
      exec (.rdw k) s = .next { s with phase := .fault, err := if s.err = .noFault then .eSeq else s.err })

/-- R136, R134: RDHEX with a valid digest appends the character code of nibble `i mod 8` (most significant first) of `H[i div 8]`,
zero-extended, and changes nothing else; with none it raises `E_SEQ` with no response. -/
def Obligations.RdhexRespondsCharacter : Prop :=
  ∀ (i : BitVec 6) (s : State),
    (∀ v : Word, s.dv = true → s.h[i.toNat / 8]? = some (some v) →
      exec (.rdhex i) s = .next { s with respq := s.respq ++
        [let nib := v.toNat / 16 ^ (7 - i.toNat % 8) % 16
         BitVec.ofNat 32 (if nib ≤ 9 then 0x30 + nib else 0x57 + nib)] }) ∧
    (s.dv = false →
      exec (.rdhex i) s = .next { s with phase := .fault, err := if s.err = .noFault then .eSeq else s.err })

/-- R142, R20: RDSTAT appends the STATUS word, field by field, and changes nothing else, in every state. -/
def Obligations.RdstatRespondsStatus : Prop :=
  ∀ s : State, ∃ v : Word, exec .rdstat s = .next { s with respq := s.respq ++ [v] } ∧
    v.toNat = s.opened.toNat + 2 * s.dv.toNat
      + 4 * (match s.err with | .noFault => 0 | .eIllegal => 1 | .eSeq => 2 | .eLenovf => 3)
      + 16 * (match s.phase with
              | .idle => 0 | .loadw => 1 | .expand => 2 | .winit => 3 | .round => 4 | .accum => 5 | .padlen => 6 | .fault => 7)
      + 256 * (s.len.toNat / 8 % 64)

/-! ### The micro-operations -/

/-- R110: U_LOADW, on a block whose cells hold bytes, puts word `j` of the block (big-endian) in `W[j]` for `j` 0 to 15, leaves
`W[16..63]`, sets T to 16 and PHASE to PH_EXPAND, and changes nothing else. -/
def Obligations.LoadwSplitsBlock : Prop :=
  ∀ (s : State) (b : Vector Byte 64), (∀ j : Fin 64, s.blk[j] = some b[j]) →
    ∃ t, exec .uLoadw s = .next t ∧
      (∀ j : Fin 16, t.w[j.val] = some (b[4 * j.val] ++ b[4 * j.val + 1] ++ b[4 * j.val + 2] ++ b[4 * j.val + 3])) ∧
      (∀ j : Fin 64, 16 ≤ j.val → t.w[j] = s.w[j]) ∧
      t = { s with w := t.w, t := 16, phase := .expand }

/-- R111: U_EXPAND, at `16 <= T` with its four sources holding values, puts the recurrence's word in `W[T]` and only there; at `T =
63` PHASE becomes PH_WINIT and T stays, else T counts up; nothing else changes. -/
def Obligations.ExpandComputesScheduleWord : Prop :=
  ∀ (s : State) (w16 w15 w7 w2 : Word), 16 ≤ s.t.toNat →
    s.w[s.t.toNat - 16]? = some (some w16) → s.w[s.t.toNat - 15]? = some (some w15) →
    s.w[s.t.toNat - 7]? = some (some w7) → s.w[s.t.toNat - 2]? = some (some w2) →
    ∃ t, exec .uExpand s = .next t ∧
      (∀ j : Fin 64, t.w[j] = if j.val = s.t.toNat then some (w16 + sigma0 w15 + w7 + sigma1 w2) else s.w[j]) ∧
      (if s.t.toNat = 63 then t = { s with w := t.w, phase := .winit }
       else t.t.toNat = s.t.toNat + 1 ∧ t = { s with w := t.w, t := t.t })

/-- R121: U_WINIT, on an H whose cells hold words, copies H to R, sets T to 0 and PHASE to PH_ROUND, and changes nothing else. -/
def Obligations.WinitCopiesState : Prop :=
  ∀ s : State, (∀ k : Fin 8, ∃ v, s.h[k] = some v) →
    ∃ t, exec .uWinit s = .next t ∧ (∀ k : Fin 8, t.r[k] = s.h[k]) ∧ t = { s with r := t.r, t := 0, phase := .round }

/-- R122: U_ROUND, with `a..h` and `W[T]` holding values, updates the eight registers simultaneously by the round's formulas; at
`T =
63` PHASE becomes PH_ACCUM and T stays, else T counts up; nothing else changes. -/
def Obligations.RoundUpdatesRegisters : Prop :=
  ∀ (s : State) (a b c d e f g h w : Word),
    s.r = #v[some a, some b, some c, some d, some e, some f, some g, some h] → s.w[s.t.toNat]? = some (some w) →
    ∃ t kt, exec .uRound s = .next t ∧ kTable[s.t.toNat]? = some kt ∧
      (let t1 := h + sum1 e + ch e f g + kt + w
       let t2 := sum0 a + maj a b c
       t.r = #v[some (t1 + t2), some a, some b, some c, some (d + t1), some e, some f, some g]) ∧
      (if s.t.toNat = 63 then t = { s with r := t.r, phase := .accum }
       else t.t.toNat = s.t.toNat + 1 ∧ t = { s with r := t.r, t := t.t })

/-- R131: U_ACCUM, with H and R holding values, adds R into H modulo 2^32 word by word; FIN 0 goes to PH_IDLE, FIN 1 to
PH_PADLEN with
FIN left at 1, FIN 2 sets DV, clears OPEN and FIN and goes to PH_IDLE; nothing else changes. `FIN = 3` is a model fault. -/
def Obligations.AccumAddsIntoState : Prop :=
  ∀ (s : State) (h r : Vector Word 8), (∀ k : Fin 8, s.h[k] = some h[k]) → (∀ k : Fin 8, s.r[k] = some r[k]) →
    (s.fin ≠ 3 → ∃ t, exec .uAccum s = .next t ∧
      (∀ k : Fin 8, ∃ v : Word, t.h[k] = some v ∧ v.toNat = (h[k].toNat + r[k].toNat) % 2 ^ 32) ∧
      (s.fin = 0 → t = { s with h := t.h, phase := .idle }) ∧
      (s.fin = 1 → t = { s with h := t.h, phase := .padlen }) ∧
      (s.fin = 2 → t = { s with h := t.h, dv := true, opened := false, fin := 0, phase := .idle })) ∧
    (s.fin = 3 → exec .uAccum s = .fault .finThree)

/-- R95: U_PADLEN leaves 56 zero bytes and the length, big-endian, in BLK, FIN at 2 and PHASE at PH_LOADW, and changes nothing
else. -/
def Obligations.PadlenBuildsLengthBlock : Prop :=
  ∀ s : State, ∃ t, exec .uPadlen s = .next t ∧
    (∀ j : Fin 64, t.blk[j] =
      if j.val < 56 then some 0x00 else some (BitVec.ofNat 8 (s.len.toNat / 2 ^ (8 * (63 - j.val))))) ∧
    t = { s with blk := t.blk, fin := 2, phase := .loadw }

/-! ### Rules over all instructions -/

/-- R10, R25, R40: who writes what, over every instruction: a piece of state that an instruction changes is in that instruction's
"written by" row, and exec never touches CMDQ. -/
def Obligations.OnlyNamedWritersWrite : Prop :=
  ∀ (i : Instr) (s t : State), exec i s = .next t →
    (t.h ≠ s.h → i = .init ∨ i = .uAccum) ∧
    (t.r ≠ s.r → i = .uWinit ∨ i = .uRound) ∧
    (t.w ≠ s.w → i = .uLoadw ∨ i = .uExpand) ∧
    (t.blk ≠ s.blk → (∃ cp, i = .push cp) ∨ i = .final ∨ i = .uPadlen) ∧
    (t.len ≠ s.len → i = .init ∨ ∃ cp, i = .push cp) ∧
    (t.t ≠ s.t → i = .uLoadw ∨ i = .uExpand ∨ i = .uWinit ∨ i = .uRound) ∧
    (t.fin ≠ s.fin → i = .init ∨ i = .final ∨ i = .uAccum ∨ i = .uPadlen) ∧
    (t.opened ≠ s.opened → i = .init ∨ i = .uAccum) ∧
    (t.dv ≠ s.dv → i = .init ∨ i = .uAccum) ∧
    (t.err ≠ s.err → t.phase = .fault ∧ ((∃ cp, i = .push cp) ∨ i = .final ∨ (∃ k, i = .rdw k) ∨ ∃ n, i = .rdhex n)) ∧
    (t.respq ≠ s.respq → (∃ k, i = .rdw k) ∨ (∃ n, i = .rdhex n) ∨ i = .rdstat) ∧
    t.cmdq = s.cmdq

/-- R162, R163: outside PH_FAULT, an instruction's own fault arises exactly from PUSH or FINAL with OPEN = 0, RDW or RDHEX with DV =
0, and PUSH at `2^64 - 8` bits, and then nothing but ERR and PHASE has changed. -/
def Obligations.FaultsExactlyOnMisuse : Prop :=
  ∀ (i : Instr) (s t : State), s.phase ≠ .fault → exec i s = .next t →
    (t.phase = .fault ↔
      (match i with
       | .push _ => s.opened = false ∨ s.len.toNat = 2 ^ 64 - 8
       | .final => s.opened = false
       | .rdw _ | .rdhex _ => s.dv = false
       | _ => False)) ∧
    (t.phase = .fault → t = { s with err := t.err, phase := .fault })

/-- R25: "Exactly one word is appended by each successful RDW, RDHEX and RDSTAT and none by any other command or by any
micro-operation or fault". -/
def Obligations.OneResponsePerRead : Prop :=
  ∀ (i : Instr) (s t : State), s.phase ≠ .fault → exec i s = .next t →
    if t.phase ≠ .fault ∧ ((∃ k, i = .rdw k) ∨ (∃ n, i = .rdhex n) ∨ i = .rdstat)
    then ∃ v, t.respq = s.respq ++ [v] else t.respq = s.respq

/-- R22: "a read of `none` by any rule is a model fault, not a number": every rule that reads a register file stops, naming a cell
that holds no value, when a cell it reads holds none. -/
def Obligations.UnwrittenReadIsModelFault : Prop :=
  ∀ s : State,
    (∀ j : Fin 64, s.blk[j] = none → ∃ i : Fin 64, s.blk[i] = none ∧ exec .uLoadw s = .fault (.noValue .BLK i)) ∧
    (∀ k : Fin 8, s.h[k] = none →
      (∃ i : Fin 8, s.h[i] = none ∧ exec .uWinit s = .fault (.noValue .H i)) ∧
      (∃ i : Fin 8, s.h[i] = none ∧ exec .uAccum s = .fault (.noValue .H i)) ∧
      (s.dv = true → exec (.rdw (BitVec.ofNat 3 k.val)) s = .fault (.noValue .H k)) ∧
      (s.dv = true → ∀ c : Fin 8, exec (.rdhex (BitVec.ofNat 6 (8 * k.val + c.val))) s = .fault (.noValue .H k))) ∧
    (∀ k : Fin 8, s.r[k] = none →
      (∃ i : Fin 8, s.r[i] = none ∧ exec .uRound s = .fault (.noValue .R i)) ∧
      (∀ h : Vector Word 8, (∀ n : Fin 8, s.h[n] = some h[n]) →
        ∃ i : Fin 8, s.r[i] = none ∧ exec .uAccum s = .fault (.noValue .R i))) ∧
    (∀ j : Fin 64, s.w[j] = none →
      (16 ≤ s.t.toNat → (j.val + 16 = s.t.toNat ∨ j.val + 15 = s.t.toNat ∨ j.val + 7 = s.t.toNat ∨ j.val + 2 = s.t.toNat) →
        ∃ i : Fin 64, s.w[i] = none ∧ exec .uExpand s = .fault (.noValue .W i)) ∧
      (j.val = s.t.toNat → (∀ k : Fin 8, ∃ v, s.r[k] = some v) → exec .uRound s = .fault (.noValue .W j)))

/-! ### Reset, the invariant, and runs -/

/-- R27, R180: reset, from any state, leaves PHASE at PH_IDLE, T, FIN, OPEN, DV, ERR and LEN at 0, both streams empty, and no
cell of
H, R, W, BLK holding a value; it is the state the machine starts in. -/
def Obligations.ResetValues : Prop :=
  ∀ s : State, ∃ t, HostEvent.reset.apply s = .next t ∧ t = core.reset ∧
    t.phase = .idle ∧ t.t = 0 ∧ t.fin = 0 ∧ t.opened = false ∧ t.dv = false ∧ t.err = .noFault ∧ t.len = 0 ∧
    t.cmdq = [] ∧ t.respq = [] ∧ (∀ k : Fin 8, t.h[k] = none) ∧ (∀ k : Fin 8, t.r[k] = none) ∧
    (∀ j : Fin 64, t.w[j] = none) ∧ (∀ j : Fin 64, t.blk[j] = none) ∧
    t.busyLine = false ∧ t.dvLine = false ∧ t.errLine = false ∧ t.status = 0

/-- R23, R181 (the spec's own inferences), with R146's T: the invariant holds at reset. -/
def Obligations.ResetMeetsInvariant : Prop := State.Inv core.reset

/-- R23, R181 (the spec's own inferences), with R146's T: every step keeps the invariant. (A step while the
engine waits changes nothing: assumption 2.) -/
def Obligations.StepKeepsInvariant : Prop :=
  ∀ s t : State, s.Inv → core.step s = .next t → t.Inv

/-- R181, R147 (the spec's own inferences): from a state that meets the invariant, no step is a model fault: no rule reads a
cell that holds no value, FIN is never 3 in U_ACCUM, and (PHASE, T) is never outside the transition table. (A step while the
engine waits changes nothing: assumption 2.) -/
def Obligations.NoStepFaultsUnderInvariant : Prop :=
  ∀ s : State, s.Inv → ∃ t : State, core.step s = .next t

/-- R186, R145, R180 (what may happen), and R23, R181 (the spec's own inferences: the invariant and the absence of model faults):
under any interleaving of appended words, removed responses, resets and engine steps, the system never meets a model fault and
keeps the invariant. That removing a response from an empty RESPQ does nothing, and a step while the
engine waits, is the model's choice (assumptions 10, 2). -/
def Obligations.AnyInterleavingIsSafe : Prop :=
  ∀ (es : List HostEvent) (s : State), s.Inv → ∃ t, runEvents es s = .next t ∧ t.Inv

/-- R181 (the spec's own inference): the unspecified reset values cannot be observed: a state that holds further values in cells
that hold none in `s` runs, step
by step, through the same control states and streams. (A step while the
engine waits changes nothing: assumption 2.) -/
def Obligations.UnwrittenCellsUnobservable : Prop :=
  ∀ (n : Nat) (s s' t : State), s.Refines s' → core.run n s = .next t →
    ∃ t' : State, core.run n s' = .next t' ∧ t.Refines t'

/-- R46, R171: an event at one instance leaves every other instance as it was, and its effect on its own instance does not depend on
the others. -/
def Obligations.InstancesShareNothing : Prop :=
  ∀ (chip chip' : Chip) (n : Nat) (e : HostEvent), chip.eventAt n e = .next chip' →
    chip'.length = chip.length ∧ (∀ m, m ≠ n → chip'[m]? = chip[m]?) ∧
    (∀ s, chip[n]? = some s → ∃ t, e.apply s = .next t ∧ chip'[n]? = some t)

/-- R145 (the spec's own inference): the interleaving of host actions with engine steps "cannot change any value the engine
computes": where a step is enabled,
appending a word before or after it, and removing a response that is already there before or after it, come to the same. -/
def Obligations.HostActionsCommuteWithSteps : Prop :=
  ∀ s t : State, s.stepEnabled = true → step s = .next t →
    (∀ w, step (s.appendCommand w) = .next (t.appendCommand w)) ∧
    (s.respq ≠ [] → step s.removeResponse = .next t.removeResponse)

/-! ### Whole sequences of steps -/

/-- R112 (the spec's own inference): the reference schedule obeys the recurrence. -/
def Obligations.ScheduleRecurrence : Prop :=
  ∀ (b : Vector Byte 64) (i : Fin 64),
    (∀ h : i.val < 16, (sched b)[i] = blockWord b ⟨i.val, h⟩) ∧
    (16 ≤ i.val → ∃ a c d e, (sched b)[i.val - 16]? = some a ∧ (sched b)[i.val - 15]? = some c ∧ (sched b)[i.val - 7]? = some d ∧
      (sched b)[i.val - 2]? = some e ∧ (sched b)[i] = a + sigma0 c + d + sigma1 e)

/-- R112 (the spec's own inference): from PH_LOADW with a block `b` in BLK, the 49 micro-operations U_LOADW, U_EXPAND x 48 leave
`sched b` in W, T at 63, PHASE at PH_WINIT, and nothing else changed. (T is 0 or 63, as on every entry to PH_LOADW, R146: assumption
4.) -/
def Obligations.ScheduleComputedIn49Steps : Prop :=
  ∀ (s : State) (b : Vector Byte 64), s.phase = .loadw → s.t = 0 ∨ s.t = 63 → (∀ j : Fin 64, s.blk[j] = some b[j]) →
    ∃ t : State, core.run 49 s = .next t ∧ (∀ i : Fin 64, t.w[i] = some (sched b)[i]) ∧
      t = { s with w := t.w, t := 63, phase := .winit }

/-- R123 (the spec's own inference): from PH_WINIT with `T = 63` (as on every entry to it, R146), `H = v` and `W = w`, the 65 micro-operations U_WINIT, U_ROUND x 64 leave
`rounds(v, w)` in R, T at 63,
PHASE at PH_ACCUM, and H, W and all else unchanged. -/
def Obligations.RoundsComputedIn65Steps : Prop :=
  ∀ (s : State) (v : Vector Word 8) (w : Vector Word 64), s.phase = .winit → s.t = 63 → (∀ k : Fin 8, s.h[k] = some v[k]) →
    (∀ i : Fin 64, s.w[i] = some w[i]) →
    ∃ t : State, core.run 65 s = .next t ∧ (∀ k : Fin 8, t.r[k] = some (rounds v w)[k]) ∧
      t = { s with r := t.r, t := 63, phase := .accum }

/-- R132 (the spec's own inference): from PH_LOADW with `H = v` and `BLK = b`, the 115 micro-operations of one block leave
`compress(v, b)` in H. (T is 0 or 63, as on every entry to PH_LOADW, R146: assumption 4.) -/
def Obligations.BlockCompressedIn115Steps : Prop :=
  ∀ (s : State) (v : Vector Word 8) (b : Vector Byte 64), s.phase = .loadw → s.t = 0 ∨ s.t = 63 → s.fin ≠ 3 →
    (∀ k : Fin 8, s.h[k] = some v[k]) → (∀ j : Fin 64, s.blk[j] = some b[j]) →
    ∃ t : State, core.run 115 s = .next t ∧ (∀ k : Fin 8, t.h[k] = some (compress v b)[k]) ∧
      t.blk = s.blk ∧ t.len = s.len ∧ t.err = s.err ∧ t.cmdq = s.cmdq ∧ t.respq = s.respq

/-- R147 (the spec's own inference): a busy episode that meets the invariant ends: from PH_LOADW the engine is busy for exactly
115 steps when FIN is 0 or 2, and
for exactly 231 when FIN is 1, and then in PH_IDLE. -/
def Obligations.BusyEpisodeEnds : Prop :=
  ∀ s : State, s.Inv → s.phase = .loadw →
    ∃ t : State, core.run (if s.fin = 1 then 231 else 115) s = .next t ∧ t.phase = .idle ∧
      ∀ (k : Nat) (u : State), k < (if s.fin = 1 then 231 else 115) → core.run k s = .next u → isBusy u.phase = true

/-- R152, by R147 (the spec's own inference): every run ends. Whatever has happened in the run of any word list so far, in any
interleaving of host and engine, no model fault was met, and once the host has appended the words that are left the run ends
after finitely many steps. That events which find nothing to do are answered with nothing changed is the model's choice: a step
while the engine waits (assumption 2), a removal from an empty RESPQ (10), an append with no word left (15). -/
def Obligations.EveryRunEnds : Prop :=
  ∀ (s : State) (ws : List Word) (es : List RunEvent), s.Inv →
    ∃ r : Run, (Run.start s ws).follow es = .next r ∧
      ∃ (n : Nat) (r' : Run),
        r.follow (List.replicate r.toAppend.length .append ++ List.replicate n .engine) = .next r' ∧ r'.ended = true

/-- R152: "the order in which host appends interleave with engine steps (no outcome depends on it)": two runs of the same words from
the same state that have ended have the same outcome, and their engines differ in nothing but the responses still in RESPQ. (Events that find nothing to do change nothing: assumptions 2, 10, 15.) -/
def Obligations.RunOutcomeUnique : Prop :=
  ∀ (s : State) (ws : List Word) (es es' : List RunEvent) (r r' : Run),
    (Run.start s ws).follow es = .next r → r.ended = true → (Run.start s ws).follow es' = .next r' → r'.ended = true →
    r'.outcome = r.outcome ∧ r'.engine = { r.engine with respq := r'.engine.respq }

/-- R151 (the spec's own inference): a PUSH that completes a block, with the busy episode it starts, is one transition: H
becomes the compression of the block, W
its schedule, R the result of the rounds, T 63, and nothing else but BLK and LEN has changed. (T is 0 or 63 before, as in every
PH_IDLE that a run reaches, R146: assumption 4.) -/
def Obligations.PushCompletesBlock : Prop :=
  ∀ (cp : CodePoint) (s : State) (v : Vector Word 8) (b : Vector Byte 64), s.phase = .idle → s.t = 0 ∨ s.t = 63 → s.fin = 0 → s.opened = true →
    s.len.toNat ≠ 2 ^ 64 - 8 → s.len.toNat / 8 % 64 = 63 → (∀ k : Fin 8, s.h[k] = some v[k]) →
    (∀ j : Fin 64, j.val < 63 → s.blk[j] = some b[j]) → b[63] = BitVec.ofNat 8 cp.toNat →
    ∃ u t : State, exec (.push cp) s = .next u ∧ core.run 115 u = .next t ∧
      (∀ k : Fin 8, t.h[k] = some (compress v b)[k]) ∧ (∀ i : Fin 64, t.w[i] = some (sched b)[i]) ∧
      (∀ k : Fin 8, t.r[k] = some (rounds v (sched b))[k]) ∧ (∀ j : Fin 64, t.blk[j] = some b[j]) ∧
      t = { s with h := t.h, w := t.w, r := t.r, blk := t.blk, len := s.len + 8, t := 63 }

/-- R151 (the spec's own inference): FINAL with the busy episode it starts is one transition: one compression of the padded
block when `fill <= 55`, two (the
second of 56 zeros and LEN) otherwise; OPEN is cleared, DV set, and LEN is as it was. (T is 0 or 63 before: assumption 4.) -/
def Obligations.FinalCompletesDigest : Prop :=
  ∀ (s : State) (v : Vector Word 8) (b z : Vector Byte 64), s.phase = .idle → s.t = 0 ∨ s.t = 63 → s.opened = true → (∀ k : Fin 8, s.h[k] = some v[k]) →
    (∀ j : Fin 64, j.val < s.len.toNat / 8 % 64 → s.blk[j] = some b[j]) →
    (∀ j : Fin 64, s.len.toNat / 8 % 64 ≤ j.val → b[j] =
      if j.val = s.len.toNat / 8 % 64 then 0x80
      else if s.len.toNat / 8 % 64 ≤ 55 ∧ 56 ≤ j.val then BitVec.ofNat 8 (s.len.toNat / 2 ^ (8 * (63 - j.val)))
      else 0x00) →
    (∀ j : Fin 64, z[j] = if j.val < 56 then 0x00 else BitVec.ofNat 8 (s.len.toNat / 2 ^ (8 * (63 - j.val)))) →
    (s.len.toNat / 8 % 64 ≤ 55 → ∃ u t : State, exec .final s = .next u ∧ core.run 115 u = .next t ∧
      (∀ k : Fin 8, t.h[k] = some (compress v b)[k]) ∧ (∀ i : Fin 64, t.w[i] = some (sched b)[i]) ∧
      (∀ k : Fin 8, t.r[k] = some (rounds v (sched b))[k]) ∧ (∀ j : Fin 64, t.blk[j] = some b[j]) ∧
      t = { s with h := t.h, w := t.w, r := t.r, blk := t.blk, t := 63, fin := 0, opened := false, dv := true }) ∧
    (56 ≤ s.len.toNat / 8 % 64 → ∃ u t : State, exec .final s = .next u ∧ core.run 231 u = .next t ∧
      (∀ k : Fin 8, t.h[k] = some (compress (compress v b) z)[k]) ∧ (∀ i : Fin 64, t.w[i] = some (sched z)[i]) ∧
      (∀ k : Fin 8, t.r[k] = some (rounds (compress v b) (sched z))[k]) ∧ (∀ j : Fin 64, t.blk[j] = some z[j]) ∧
      t = { s with h := t.h, w := t.w, r := t.r, blk := t.blk, t := 63, fin := 0, opened := false, dv := true })

/-- R93, whose byte form the spec marks as its own inference: the byte form of the padded message is the document's bit
sequence, whose zero count is the least that makes the length
congruent to 448 modulo 512 before the length field. -/
def Obligations.PaddingBytesAreTheBits : Prop :=
  ∀ m : List Byte, 8 * m.length < 2 ^ 64 →
    (padBytes m).flatMap byteBits = padBits m ∧
    (8 * m.length + 1 + padZeroBits (8 * m.length)) % 512 = 448 ∧
    (∀ z, (8 * m.length + 1 + z) % 512 = 448 → padZeroBits (8 * m.length) ≤ z)

/-- R94 (the spec's own inference): the padded message is `N` blocks of 64 bytes, with `N` the next block after the last message
byte when at most 55 bytes of it
are used and one more otherwise; every message has a block. -/
def Obligations.PaddedLengthIsWholeBlocks : Prop :=
  ∀ m : List Byte,
    (padBytes m).length = 64 * blockCount m.length ∧ 1 ≤ blockCount m.length ∧
    blockCount m.length = (8 * m.length + 65 + 511) / 512 ∧
    blockCount m.length = m.length / 64 + (if m.length % 64 ≤ 55 then 1 else 2)

/-- R134: the rendering of any digest has 64 characters, each a code of `0`..`9` or `a`..`f`. -/
def Obligations.DigestRendersAsLowercaseHex : Prop :=
  ∀ m : List Byte, (computeDigest m).length = 64 ∧
    ∀ c ∈ computeDigest m, 0x30 ≤ c.toNat ∧ c.toNat ≤ 0x39 ∨ 0x61 ≤ c.toNat ∧ c.toNat ≤ 0x66

/-- R150 (the spec's own inference): from any idle state without a fault, the words INIT, PUSH for each character, FINAL leave,
after `n + 2` command steps and
`115 N + e` micro-operations, the digest of the characters' low bytes in H, `LEN = 8n`, OPEN 0, DV 1, ERR 0, FIN 0 and PH_IDLE;
the words after them wait, and no response has been produced. (T is 0 or 63 before: assumption 4.) -/
def Obligations.MessageIsDigested : Prop :=
  ∀ (s : State) (cs : List CodePoint) (rest : List Word), s.phase = .idle → s.t = 0 ∨ s.t = 63 → s.err = .noFault → cs.length ≤ 2 ^ 61 - 1 →
    s.cmdq = 0x10000000#32 :: cs.map (fun c => 0x20000000#32 + c.setWidth 32) ++ 0x30000000#32 :: rest →
    ∃ t : State, core.run (cs.length + 2 + 115 * blockCount cs.length + (if 56 ≤ cs.length % 64 then 1 else 0)) s = .next t ∧
      (∀ k : Fin 8, t.h[k] = some (digestWords (cs.map codeUnit))[k]) ∧
      t.len.toNat = 8 * cs.length ∧ t.opened = false ∧ t.dv = true ∧ t.err = .noFault ∧ t.fin = 0 ∧ t.phase = .idle ∧
      t.cmdq = rest ∧ t.respq = s.respq

/-- R8, R64, R152, resting on R150 (the spec's own inference): the run of `compute "m"` from any idle state without a fault and with
no command waiting ends well, in whatever order host and engine act, and its outcome is the 64 characters of the document's digest
string and the output lines 0, 1, 0; some order ends it. (T is 0 or 63 before: assumption 4. Events that find nothing to do change nothing:
assumptions 2, 10, 15.) -/
def Obligations.ComputeAnswersDigestString : Prop :=
  ∀ (s : State) (cps : List Nat) (ws : List Word), s.phase = .idle → s.t = 0 ∨ s.t = 63 → s.err = .noFault → s.cmdq = [] →
    cps.length ≤ 2 ^ 61 - 1 → (AsmLine.compute cps).assemble = some ws →
    (∃ es r, (Run.start s ws).follow es = .next r ∧ r.ended = true) ∧
    ∀ es r, (Run.start s ws).follow es = .next r → r.ended = true →
      r.endedWell = true ∧
      r.outcome = ((computeDigest (cps.map fun c => BitVec.ofNat 8 c)).map (fun c => c.setWidth 32), false, true, false)
end

