-- ==== Sys2Proof/Laws/State.lean ====
section
/-! SUPPORT. What each named update of State leaves in each field. -/

namespace Sys2Proof.Machine

section respond
variable (s : State) (v : Word)

@[simp] theorem respond_h : (s.respond v).h = s.h := rfl
@[simp] theorem respond_r : (s.respond v).r = s.r := rfl
@[simp] theorem respond_w : (s.respond v).w = s.w := rfl
@[simp] theorem respond_blk : (s.respond v).blk = s.blk := rfl
@[simp] theorem respond_len : (s.respond v).len = s.len := rfl
@[simp] theorem respond_phase : (s.respond v).phase = s.phase := rfl
@[simp] theorem respond_t : (s.respond v).t = s.t := rfl
@[simp] theorem respond_fin : (s.respond v).fin = s.fin := rfl
@[simp] theorem respond_opened : (s.respond v).opened = s.opened := rfl
@[simp] theorem respond_dv : (s.respond v).dv = s.dv := rfl
@[simp] theorem respond_err : (s.respond v).err = s.err := rfl
@[simp] theorem respond_cmdq : (s.respond v).cmdq = s.cmdq := rfl
@[simp] theorem respond_respq : (s.respond v).respq = s.respq ++ [v] := rfl
@[simp] theorem respond_fill : (s.respond v).fill = s.fill := rfl

end respond

section raiseFault
variable (s : State) (c : ErrCode)

@[simp] theorem raiseFault_h : (s.raiseFault c).h = s.h := rfl
@[simp] theorem raiseFault_r : (s.raiseFault c).r = s.r := rfl
@[simp] theorem raiseFault_w : (s.raiseFault c).w = s.w := rfl
@[simp] theorem raiseFault_blk : (s.raiseFault c).blk = s.blk := rfl
@[simp] theorem raiseFault_len : (s.raiseFault c).len = s.len := rfl
@[simp] theorem raiseFault_phase : (s.raiseFault c).phase = .fault := rfl
@[simp] theorem raiseFault_t : (s.raiseFault c).t = s.t := rfl
@[simp] theorem raiseFault_fin : (s.raiseFault c).fin = s.fin := rfl
@[simp] theorem raiseFault_opened : (s.raiseFault c).opened = s.opened := rfl
@[simp] theorem raiseFault_dv : (s.raiseFault c).dv = s.dv := rfl
@[simp] theorem raiseFault_err : (s.raiseFault c).err = if s.err = .noFault then c else s.err := rfl
@[simp] theorem raiseFault_cmdq : (s.raiseFault c).cmdq = s.cmdq := rfl
@[simp] theorem raiseFault_respq : (s.raiseFault c).respq = s.respq := rfl

end raiseFault

section host
variable (s : State) (w : Word)

@[simp] theorem appendCommand_h : (s.appendCommand w).h = s.h := rfl
@[simp] theorem appendCommand_r : (s.appendCommand w).r = s.r := rfl
@[simp] theorem appendCommand_w : (s.appendCommand w).w = s.w := rfl
@[simp] theorem appendCommand_blk : (s.appendCommand w).blk = s.blk := rfl
@[simp] theorem appendCommand_len : (s.appendCommand w).len = s.len := rfl
@[simp] theorem appendCommand_phase : (s.appendCommand w).phase = s.phase := rfl
@[simp] theorem appendCommand_t : (s.appendCommand w).t = s.t := rfl
@[simp] theorem appendCommand_fin : (s.appendCommand w).fin = s.fin := rfl
@[simp] theorem appendCommand_opened : (s.appendCommand w).opened = s.opened := rfl
@[simp] theorem appendCommand_dv : (s.appendCommand w).dv = s.dv := rfl
@[simp] theorem appendCommand_err : (s.appendCommand w).err = s.err := rfl
@[simp] theorem appendCommand_cmdq : (s.appendCommand w).cmdq = s.cmdq ++ [w] := rfl
@[simp] theorem appendCommand_respq : (s.appendCommand w).respq = s.respq := rfl
@[simp] theorem appendCommand_fill : (s.appendCommand w).fill = s.fill := rfl

@[simp] theorem removeResponse_h : s.removeResponse.h = s.h := rfl
@[simp] theorem removeResponse_r : s.removeResponse.r = s.r := rfl
@[simp] theorem removeResponse_w : s.removeResponse.w = s.w := rfl
@[simp] theorem removeResponse_blk : s.removeResponse.blk = s.blk := rfl
@[simp] theorem removeResponse_len : s.removeResponse.len = s.len := rfl
@[simp] theorem removeResponse_phase : s.removeResponse.phase = s.phase := rfl
@[simp] theorem removeResponse_t : s.removeResponse.t = s.t := rfl
@[simp] theorem removeResponse_fin : s.removeResponse.fin = s.fin := rfl
@[simp] theorem removeResponse_opened : s.removeResponse.opened = s.opened := rfl
@[simp] theorem removeResponse_dv : s.removeResponse.dv = s.dv := rfl
@[simp] theorem removeResponse_err : s.removeResponse.err = s.err := rfl
@[simp] theorem removeResponse_cmdq : s.removeResponse.cmdq = s.cmdq := rfl
@[simp] theorem removeResponse_respq : s.removeResponse.respq = s.respq.tail := rfl
@[simp] theorem removeResponse_fill : s.removeResponse.fill = s.fill := rfl

end host

@[simp] theorem resetEvent_eq (s : State) : s.resetEvent = State.reset := rfl

end Sys2Proof.Machine
end

