-- ==== Sys2Proof/Laws/Decode.lean ====
section
/-! SUPPORT. The decoder in arithmetic: which numbers each row of the opcode map covers. -/

namespace Sys2Proof

theorem covers_iff (r : OpRow) (w : Word) : r.covers w = true ↔ w &&& r.mask = r.pattern := by simp [OpRow.covers]

theorem and_mask_high (w : Word) (k : Nat) (hk : k ≤ 32) : (w &&& (BitVec.allOnes 32 <<< k)).toNat = w.toNat / 2 ^ k * 2 ^ k := by
  have : w &&& (BitVec.allOnes 32 <<< k) = (w >>> k) <<< k := by
    apply BitVec.eq_of_getLsbD_eq; intro j hj
    simp only [BitVec.getLsbD_and, BitVec.getLsbD_shiftLeft, BitVec.getLsbD_ushiftRight, BitVec.getLsbD_allOnes]
    by_cases h : j < k
    · simp [h]
    · have : k + (j - k) = j := by omega
      have h2 : j - k < 32 := by omega
      simp [h, hj, this, h2]
  rw [this]
  simp only [BitVec.toNat_shiftLeft, BitVec.toNat_ushiftRight, Nat.shiftRight_eq_div_pow, Nat.shiftLeft_eq]
  apply Nat.mod_eq_of_lt
  exact lt_of_le_of_lt (Nat.div_mul_le_self _ _) w.isLt

theorem cover_high (w p : Word) (m : Word) (k : Nat) (hk : k ≤ 32) (hm : m = BitVec.allOnes 32 <<< k) (hp : p.toNat % 2^k = 0) :
    (w &&& m = p) ↔ w.toNat / 2^k = p.toNat / 2^k := by
  subst hm
  rw [← BitVec.toNat_inj, and_mask_high w k hk]
  constructor
  · intro h; rw [← h, Nat.mul_div_cancel _ (by positivity)]
  · intro h; rw [h]; exact Nat.div_mul_cancel (Nat.dvd_of_mod_eq_zero hp)

theorem decode_cases (w : Word) :
    decode w =
      if w.toNat = 0x10000000 then .ok .init
      else if w.toNat / 2^24 = 0x20 then .ok (.push (cpField w))
      else if w.toNat = 0x30000000 then .ok .final
      else if w.toNat / 2^3 = 0x08000000 then .ok (.rdw (kField w))
      else if w.toNat / 2^6 = 0x1400000 then .ok (.rdhex (iField w))
      else if w.toNat = 0x60000000 then .ok .rdstat
      else .error (illegalReason w) := by
  have h1 : (w &&& 0xFFFFFFFF#32 = 0x10000000#32) ↔ w.toNat = 0x10000000 := by
    simpa using cover_high w 0x10000000#32 _ 0 (by decide) (by decide) (by decide)
  have h3 : (w &&& 0xFFFFFFFF#32 = 0x30000000#32) ↔ w.toNat = 0x30000000 := by
    simpa using cover_high w 0x30000000#32 _ 0 (by decide) (by decide) (by decide)
  have h6 : (w &&& 0xFFFFFFFF#32 = 0x60000000#32) ↔ w.toNat = 0x60000000 := by
    simpa using cover_high w 0x60000000#32 _ 0 (by decide) (by decide) (by decide)
  have h2 : (w &&& 0xFF000000#32 = 0x20000000#32) ↔ w.toNat / 2^24 = 0x20 :=
    cover_high w 0x20000000#32 _ 24 (by decide) (by decide) (by decide)
  have h4 : (w &&& 0xFFFFFFF8#32 = 0x40000000#32) ↔ w.toNat / 2^3 = 0x08000000 :=
    cover_high w 0x40000000#32 _ 3 (by decide) (by decide) (by decide)
  have h5 : (w &&& 0xFFFFFFC0#32 = 0x50000000#32) ↔ w.toNat / 2^6 = 0x1400000 :=
    cover_high w 0x50000000#32 _ 6 (by decide) (by decide) (by decide)
  simp only [decode, opRows, List.find?, OpRow.covers]
  by_cases c1 : w.toNat = 0x10000000
  · rw [if_pos c1]; simp only [beq_iff_eq.2 (h1.2 c1)]
  rw [if_neg c1, beq_eq_false_iff_ne.2 (mt h1.1 c1)]
  by_cases c2 : w.toNat / 2^24 = 0x20
  · rw [if_pos c2]; simp only [beq_iff_eq.2 (h2.2 c2)]
  rw [if_neg c2, beq_eq_false_iff_ne.2 (mt h2.1 c2)]
  by_cases c3 : w.toNat = 0x30000000
  · rw [if_pos c3]; simp only [beq_iff_eq.2 (h3.2 c3)]
  rw [if_neg c3, beq_eq_false_iff_ne.2 (mt h3.1 c3)]
  by_cases c4 : w.toNat / 2^3 = 0x08000000
  · rw [if_pos c4]; simp only [beq_iff_eq.2 (h4.2 c4)]
  rw [if_neg c4, beq_eq_false_iff_ne.2 (mt h4.1 c4)]
  by_cases c5 : w.toNat / 2^6 = 0x1400000
  · rw [if_pos c5]; simp only [beq_iff_eq.2 (h5.2 c5)]
  rw [if_neg c5, beq_eq_false_iff_ne.2 (mt h5.1 c5)]
  by_cases c6 : w.toNat = 0x60000000
  · rw [if_pos c6]; simp only [beq_iff_eq.2 (h6.2 c6)]
  rw [if_neg c6, beq_eq_false_iff_ne.2 (mt h6.1 c6)]

theorem toNat_pushw (cp : CodePoint) : ((0x20#8 ++ cp : Word)).toNat = 0x20000000 + cp.toNat := by
  rw [BitVec.toNat_append, Nat.shiftLeft_eq, Nat.mul_comm, ← Nat.two_pow_add_eq_or_of_lt cp.isLt]
  norm_num

theorem uop_of_busy {p : Phase} (h : Machine.isBusy p = true) : ∃ i, uopOf p = some i ∧ i.isCommand = false := by
  cases p <;> first | exact ⟨_, rfl, rfl⟩ | cases h

/-- What the opcode map decodes is one of the six commands. -/
theorem decode_isCommand {w : Word} {i : Instr} (h : decode w = .ok i) : i.isCommand = true := by
  rw [decode_cases] at h
  split_ifs at h <;> cases h <;> rfl

theorem pushWord_eq {c : Nat} (h : c < 2 ^ 24) : pushWord c = 0x20#8 ++ BitVec.ofNat 24 c := by
  apply BitVec.eq_of_toNat_eq; rw [toNat_pushw]; simp [pushWord]; omega

end Sys2Proof
end

