-- ==== Sys2Proof/Laws/Ops.lean ====
section
/-! SUPPORT. What the shared operations can do, said once: reading one cell, reading a whole register file, and a file all of
whose cells hold given values. -/

namespace Sys2Proof.Machine

variable {α : Type} {n : Nat}

/-! ### Register files that hold values -/

@[simp] theorem held_getElem (x : Vector α n) (i : Nat) (hi : i < n) : (held x)[i] = some x[i] := by
  simp [held]

theorem held_of_cells {v : Vector (Option α) n} {x : Vector α n} (h : ∀ i : Fin n, v[i] = some x[i]) : v = held x := by
  ext i hi : 1
  simpa using h ⟨i, hi⟩

theorem held_inj {x y : Vector α n} (h : held x = held y) : x = y := by
  ext i hi : 1
  have := congrArg (fun v : Vector (Option α) n => v[i]) h
  simpa using this

theorem allHeld_held (x : Vector α n) : allHeld (held x) := fun i => by simp

theorem held_of_allHeld {v : Vector (Option α) n} (h : allHeld v) : ∃ x, v = held x :=
  ⟨Vector.ofFn fun i => v[i].get (h i), held_of_cells fun i => by simp⟩

theorem heldBelow_of_allHeld {v : Vector (Option α) n} (h : allHeld v) (k : Nat) : heldBelow v k := fun i _ => h i

theorem allHeld_of_heldBelow {v : Vector (Option α) n} (h : heldBelow v n) : allHeld v := fun i => h i i.isLt

/-! ### Reading -/

theorem readCell_some {f : RegFile} {v : Vector (Option α) n} {i : Fin n} {x : α} {k : α → Result}
    (h : v[i] = some x) : readCell f v i k = k x := by
  simp [readCell, h]

theorem readCell_none {f : RegFile} {v : Vector (Option α) n} {i : Fin n} {k : α → Result}
    (h : v[i] = none) : readCell f v i k = .fault (.noValue f i.val) := by
  simp [readCell, h]

/-- If reading a cell leads to a next state, the cell held a value and the rest of the rule answered with it. -/
theorem readCell_next {f : RegFile} {v : Vector (Option α) n} {i : Fin n} {k : α → Result} {t : State} :
    readCell f v i k = .next t ↔ ∃ x, v[i] = some x ∧ k x = .next t := by
  cases h : v[i] with
  | none => simp [readCell_none h]
  | some x => simp [readCell_some h]

theorem firstEmpty_held (x : Vector α n) : firstEmpty (held x) = none := by
  simp only [firstEmpty, List.findIdx?_eq_none_iff]
  intro o ho
  obtain ⟨i, hi, rfl⟩ := List.mem_iff_getElem.1 ho
  simp

@[simp] theorem readAll_held [Inhabited α] (f : RegFile) (x : Vector α n) (k : Vector α n → Result) :
    readAll f (held x) k = k x := by
  simp only [readAll, firstEmpty_held]
  congr 1
  ext i hi : 1
  simp

/-- Reading a whole file goes on with its values, or stops at a cell that holds none. -/
theorem readAll_cases [Inhabited α] (f : RegFile) (v : Vector (Option α) n) (k : Vector α n → Result) :
    (∃ x, v = held x ∧ readAll f v k = k x) ∨
      (∃ i : Fin n, v[i] = none ∧ readAll f v k = .fault (.noValue f i.val)) := by
  cases h : firstEmpty v with
  | some j =>
    right
    obtain ⟨hj, hnone, -⟩ := List.findIdx?_eq_some_iff_getElem.1 h
    refine ⟨⟨j, by simpa using hj⟩, by simpa using hnone, by simp [readAll, h]⟩
  | none =>
    left
    have hv : allHeld v := fun i => by
      have := List.findIdx?_eq_none_iff.1 h v[i] (by simp)
      simpa [Option.isSome_iff_ne_none, Option.isNone_iff_eq_none] using this
    obtain ⟨x, rfl⟩ := held_of_allHeld hv
    exact ⟨x, rfl, readAll_held f x k⟩

theorem readAll_next [Inhabited α] {f : RegFile} {v : Vector (Option α) n} {k : Vector α n → Result} {t : State} :
    readAll f v k = .next t ↔ ∃ x, v = held x ∧ k x = .next t := by
  constructor
  · intro h
    rcases readAll_cases f v k with ⟨x, hv, hx⟩ | ⟨i, -, hi⟩
    · exact ⟨x, hv, hx ▸ h⟩
    · rw [hi] at h; cases h
  · rintro ⟨x, rfl, h⟩
    simpa using h

end Sys2Proof.Machine
end

