-- ==== Sys2Proof/Laws/Operands.lean ====
section
/-! SUPPORT. The operand forms and views as numbers: `fill`, the code unit, the length bytes, the digest characters, STATUS; and
the cells of two register files compared. -/

namespace Sys2Proof.Machine

theorem fill_toNat (s : State) : s.fill.toNat = s.len.toNat / 8 % 64 := by
  simp [State.fill, fillOf, BitVec.extractLsb'_toNat, Nat.shiftRight_eq_div_pow]

theorem codeUnit_eq (cp : CodePoint) : codeUnit cp = BitVec.ofNat 8 (cp.toNat % 256) := by
  apply BitVec.eq_of_toNat_eq; simp [codeUnit]

theorem lenByte_eq (len : BitVec 64) (j : Nat) (h1 : 56 ≤ j) (h2 : j < 64) :
    lenByte len (j - 56) = BitVec.ofNat 8 (len.toNat / 2 ^ (8 * (63 - j))) := by
  apply BitVec.eq_of_toNat_eq
  rw [lenByte, BitVec.extractLsb'_toNat, Nat.shiftRight_eq_div_pow, show 7 - (j - 56) = 63 - j by omega]
  simp

theorem eq_maxBits_iff (l : BitVec 64) : l = maxBits ↔ l.toNat = 2^64 - 8 := by
  rw [← BitVec.toNat_inj]; rfl

theorem fill_le_55_iff (s : State) : s.fill ≤ 55#6 ↔ s.len.toNat / 8 % 64 ≤ 55 := by
  rw [BitVec.le_def, fill_toNat]; rfl

theorem finalBlock_getElem (blk) (fill : BitVec 6) (len) (j : Fin 64) :
    (finalBlock blk fill len)[j] = if j.val < fill.toNat then blk[j]
    else if j.val = fill.toNat then some 0x80#8
    else if fill.toNat ≤ 55 ∧ 56 ≤ j.val then some (lenByte len (j.val - 56))
    else some 0x00#8 := by
  simp [finalBlock]

theorem hexWordIndex_toNat (i : BitVec 6) : (hexWordIndex i).toNat = i.toNat / 8 := by
  have := i.isLt
  simp [hexWordIndex, BitVec.extractLsb'_toNat, Nat.shiftRight_eq_div_pow]; omega

theorem nibbleOf_toNat (v : Word) (i : BitVec 6) : (nibbleOf v i).toNat = v.toNat / 16 ^ (7 - i.toNat % 8) % 16 := by
  have : 28 - 4 * (i.toNat % 8) = 4 * (7 - i.toNat % 8) := by omega
  rw [nibbleOf, BitVec.extractLsb'_toNat, Nat.shiftRight_eq_div_pow, this, Nat.pow_mul]

theorem hexChar_setWidth (nib : BitVec 4) :
    (hexChar nib).setWidth 32 = BitVec.ofNat 32 (if nib.toNat ≤ 9 then 0x30 + nib.toNat else 0x57 + nib.toNat) := by
  revert nib; decide

theorem status_fields : ∀ (f : BitVec 6) (p : BitVec 3) (e : BitVec 2) (d o : Bool),
   ((f.setWidth 32 <<< 8) ||| (p.setWidth 32 <<< 4) ||| (e.setWidth 32 <<< 2)
    ||| ((BitVec.ofBool d).setWidth 32 <<< 1) ||| (BitVec.ofBool o).setWidth 32 : BitVec 32).toNat =
      o.toNat + 2 * d.toNat + 4 * e.toNat + 16 * p.toNat + 256 * f.toNat := by
  decide +kernel

/-- STATUS as a number, field by field. -/
theorem status_toNat (s : State) :
    s.status.toNat = s.opened.toNat + 2 * s.dv.toNat + 4 * (errBits s.err).toNat + 16 * (phaseCode s.phase).toNat
      + 256 * s.fill.toNat :=
  status_fields _ _ _ _ _

theorem eq_63_iff (t : BitVec 6) : t = 63#6 ↔ t.toNat = 63 := by rw [← BitVec.toNat_inj]; rfl

/-- One more byte below the limit: LEN stays aligned and in range, and `fill` counts modulo 64. -/
theorem len_add_eight (l : BitVec 64) (ha : l.extractLsb' 0 3 = 0#3) (hb : l ≤ maxBits) (hl : l ≠ maxBits) :
   (l + 8#64).extractLsb' 0 3 = 0#3 ∧ l + 8#64 ≤ maxBits ∧
      ((fillOf l).toNat ≠ 63 → (fillOf (l + 8#64)).toNat = (fillOf l).toNat + 1) ∧
      ((fillOf l).toNat = 63 → (fillOf (l + 8#64)).toNat = 0) := by
  have ha' : l.toNat % 8 = 0 := by have := congrArg BitVec.toNat ha; simpa [BitVec.extractLsb'_toNat] using this
  have hm : maxBits.toNat = 2^64 - 8 := rfl
  have hb' : l.toNat ≤ 2^64 - 8 := by rw [BitVec.le_def] at hb; rw [← hm]; exact hb
  have hl' : l.toNat ≠ 2^64 - 8 := fun h => hl ((eq_maxBits_iff l).2 h)
  have hs : (l + 8#64).toNat = l.toNat + 8 := by rw [BitVec.toNat_add]; simp; omega
  refine ⟨?_, ?_, ?_⟩
  · apply BitVec.eq_of_toNat_eq; rw [BitVec.extractLsb'_toNat, hs]; simp; omega
  · rw [BitVec.le_def, hs, hm]; omega
  · simp only [fillOf, BitVec.extractLsb'_toNat, hs, Nat.shiftRight_eq_div_pow]; omega

theorem cellsAgree_held {α : Type} {n : Nat} {x : Vector α n} {v : Vector (Option α) n} (h : cellsAgree (held x) v) :
    v = held x := by
  ext i hi : 1
  have := h ⟨i, hi⟩ (by simp)
  simpa using this

theorem cellsAgree_refl {α : Type} {n : Nat} (v : Vector (Option α) n) : cellsAgree v v := fun _ _ => rfl

theorem cellsAgree_some {α : Type} {n : Nat} {v v' : Vector (Option α) n} (h : cellsAgree v v') {i : Nat} {hi : i < n}
    {x : α} (hx : v[i] = some x) : v'[i] = some x := by
  have := h ⟨i, hi⟩ (by simp [hx])
  simpa [hx] using this

theorem cellsAgree_set {α : Type} {n : Nat} {v v' : Vector (Option α) n} (h : cellsAgree v v') (i : Nat) (hi : i < n) (x : Option α) :
    cellsAgree (v.set i x hi) (v'.set i x hi) := by
  intro j hj
  by_cases e : i = j.val
  · simp [e]
  · simp only [Fin.getElem_fin, Vector.getElem_set, e, if_false] at hj ⊢
    exact h j hj

end Sys2Proof.Machine
end

