-- ==== Sys2Proof/Laws/Exec.lean ====
section
/-! SUPPORT. What each instruction can do when it answers a next state, said once per instruction. Proofs cite these instead of
unfolding the meanings. -/

namespace Sys2Proof.Machine

variable {s t : State}

@[simp] theorem next_inj {a b : State} : (Host.Outcome.next a : Result) = .next b ↔ a = b :=
  ⟨fun h => by cases h; rfl, fun h => by rw [h]⟩

theorem exec_init : exec .init s =
    .next { s with h := held h0Table, len := 0#64, opened := true, dv := false, fin := 0#2 } := rfl

theorem exec_rdstat : exec .rdstat s = .next (s.respond s.status) := rfl

theorem exec_push_closed (cp : CodePoint) (h : s.opened = false) : exec (.push cp) s = .next (s.raiseFault .eSeq) := by
  simp [exec, execPush, h]

theorem exec_push_full (cp : CodePoint) (h : s.opened = true) (hl : s.len = maxBits) :
    exec (.push cp) s = .next (s.raiseFault .eLenovf) := by
  simp [exec, execPush, h, hl]

theorem exec_push_open (cp : CodePoint) (h : s.opened = true) (hl : s.len ≠ maxBits) :
    exec (.push cp) s = .next { s with
      blk := s.blk.set s.fill.toNat (some (codeUnit cp)) s.fill.isLt
      len := s.len + 8#64
      phase := if s.fill = 63#6 then .loadw else s.phase } := by
  simp [exec, execPush, h, hl]

theorem exec_final_closed (h : s.opened = false) : exec .final s = .next (s.raiseFault .eSeq) := by
  simp [exec, execFinal, h]

theorem exec_final_open (h : s.opened = true) :
    exec .final s = .next { s with
      blk := finalBlock s.blk s.fill s.len
      fin := if s.fill ≤ 55#6 then 2#2 else 1#2
      phase := .loadw } := by
  simp [exec, execFinal, h]

theorem exec_rdw_invalid (k : BitVec 3) (h : s.dv = false) : exec (.rdw k) s = .next (s.raiseFault .eSeq) := by
  simp [exec, execRdw, h]

theorem exec_rdw_valid (k : BitVec 3) (h : s.dv = true) :
    exec (.rdw k) s = .next t ↔ ∃ v, s.h[k.toNat]'k.isLt = some v ∧ s.respond v = t := by
  simp [exec, execRdw, h, readCell_next]

theorem exec_rdhex_invalid (i : BitVec 6) (h : s.dv = false) : exec (.rdhex i) s = .next (s.raiseFault .eSeq) := by
  simp [exec, execRdhex, h]

theorem exec_rdhex_valid (i : BitVec 6) (h : s.dv = true) :
    exec (.rdhex i) s = .next t ↔
      ∃ v, s.h[(hexWordIndex i).toNat]'(hexWordIndex i).isLt = some v ∧
        s.respond ((hexChar (nibbleOf v i)).setWidth 32) = t := by
  simp [exec, execRdhex, h, readCell_next]

theorem exec_uLoadw :
    exec .uLoadw s = .next t ↔
      ∃ b, s.blk = held b ∧ { s with w := loadedSchedule s.w b, t := 16#6, phase := .expand } = t := by
  simp [exec, execULoadw, readAll_next]

theorem exec_uExpand :
    exec .uExpand s = .next t ↔
      ∃ (h16 : 16 ≤ s.t.toNat) (w16 w15 w7 w2 : Word),
        s.w[s.t.toNat - 16]'(by omega) = some w16 ∧ s.w[s.t.toNat - 15]'(by omega) = some w15 ∧
        s.w[s.t.toNat - 7]'(by omega) = some w7 ∧ s.w[s.t.toNat - 2]'(by omega) = some w2 ∧
        { s with
          w := s.w.set s.t.toNat (some (expandWord w16 w15 w7 w2)) s.t.isLt
          t := if s.t = 63#6 then s.t else s.t + 1#6
          phase := if s.t = 63#6 then .winit else s.phase } = t := by
  by_cases ht : s.t.toNat < 16
  · simp [exec, execUExpand, ht, show ¬ 16 ≤ s.t.toNat by omega]
  · simp [exec, execUExpand, ht, readCell_next, show 16 ≤ s.t.toNat by omega]

theorem exec_uWinit :
    exec .uWinit s = .next t ↔ ∃ h, s.h = held h ∧ { s with r := held h, t := 0#6, phase := .round } = t := by
  simp [exec, execUWinit, readAll_next]

theorem exec_uRound :
    exec .uRound s = .next t ↔
      ∃ r w, s.r = held r ∧ s.w[s.t.toNat]'s.t.isLt = some w ∧
        { s with
          r := held (roundUpdate r (roundConstant s.t) w)
          t := if s.t = 63#6 then s.t else s.t + 1#6
          phase := if s.t = 63#6 then .accum else s.phase } = t := by
  simp only [exec, execURound, readAll_next, readCell_next, next_inj]
  constructor
  · rintro ⟨r, hr, w, hw, h⟩; exact ⟨r, w, hr, hw, h⟩
  · rintro ⟨r, w, hr, hw, h⟩; exact ⟨r, hr, w, hw, h⟩

/-- U_ACCUM answers a next state exactly when H and R hold values and FIN is legal. -/
theorem exec_uAccum :
    exec .uAccum s = .next t ↔
      ∃ h r, s.h = held h ∧ s.r = held r ∧
        ((s.fin = 0#2 ∧ { s with h := held (accumulate h r), phase := .idle } = t) ∨
         (s.fin = 1#2 ∧ { s with h := held (accumulate h r), phase := .padlen } = t) ∨
         (s.fin = 2#2 ∧ { s with h := held (accumulate h r), dv := true, opened := false, fin := 0#2,
                                 phase := .idle } = t)) := by
  simp only [exec, execUAccum, readAll_next]
  constructor
  · rintro ⟨h, hh, r, hr, hk⟩
    refine ⟨h, r, hh, hr, ?_⟩
    split at hk
    · exact .inl ⟨‹_›, next_inj.1 hk⟩
    split at hk
    · exact .inr (.inl ⟨‹_›, next_inj.1 hk⟩)
    split at hk
    · exact .inr (.inr ⟨‹_›, next_inj.1 hk⟩)
    · cases hk
  · rintro ⟨h, r, hh, hr, ⟨hf, rfl⟩ | ⟨hf, rfl⟩ | ⟨hf, rfl⟩⟩ <;> exact ⟨h, hh, r, hr, by simp [hf]⟩

theorem exec_uPadlen :
    exec .uPadlen s = .next { s with blk := padlenBlock s.len, fin := 2#2, phase := .loadw } := rfl

/-! ### When the rules meet register files that hold values -/

theorem exec_uLoadw_held {b : Vector Byte 64} (h : s.blk = held b) :
    exec .uLoadw s = .next { s with w := loadedSchedule s.w b, t := 16#6, phase := .expand } :=
  exec_uLoadw.2 ⟨b, h, rfl⟩

theorem exec_uWinit_held {h : Vector Word 8} (hh : s.h = held h) :
    exec .uWinit s = .next { s with r := held h, t := 0#6, phase := .round } :=
  exec_uWinit.2 ⟨h, hh, rfl⟩

theorem exec_uRound_held {r : Vector Word 8} {w : Word} (hr : s.r = held r) (hw : s.w[s.t.toNat]'s.t.isLt = some w) :
    exec .uRound s = .next { s with
      r := held (roundUpdate r (roundConstant s.t) w)
      t := if s.t = 63#6 then s.t else s.t + 1#6
      phase := if s.t = 63#6 then .accum else s.phase } :=
  exec_uRound.2 ⟨r, w, hr, hw, rfl⟩

/-! ### Every instruction at once -/

/-- The shape of every next state an instruction can answer: which fields it writes, and when. The values a register file
takes are in the lemmas of the single instructions above. -/
theorem exec_spec {i : Instr} {s t : State} (h : exec i s = .next t) :
   match i with
   | .init => t = { s with h := held h0Table, len := 0#64, opened := true, dv := false, fin := 0#2 }
   | .push cp => (s.opened = false ∧ t = s.raiseFault .eSeq) ∨ (s.opened = true ∧ s.len = maxBits ∧ t = s.raiseFault .eLenovf) ∨
      (s.opened = true ∧ s.len ≠ maxBits ∧ t = { s with
      blk := s.blk.set s.fill.toNat (some (codeUnit cp)) s.fill.isLt
      len := s.len + 8#64
      phase := if s.fill = 63#6 then .loadw else s.phase })
   | .final => (s.opened = false ∧ t = s.raiseFault .eSeq) ∨ (s.opened = true ∧ t = { s with
      blk := finalBlock s.blk s.fill s.len
      fin := if s.fill ≤ 55#6 then 2#2 else 1#2
      phase := .loadw })
   | .rdw _ => (s.dv = false ∧ t = s.raiseFault .eSeq) ∨ (s.dv = true ∧ ∃ v, t = s.respond v)
   | .rdhex _ => (s.dv = false ∧ t = s.raiseFault .eSeq) ∨ (s.dv = true ∧ ∃ v, t = s.respond v)
   | .rdstat => t = s.respond s.status
   | .uLoadw => ∃ b, s.blk = held b ∧ t = { s with w := loadedSchedule s.w b, t := 16#6, phase := .expand }
   | .uExpand => ∃ v, 16 ≤ s.t.toNat ∧ t = { s with
          w := s.w.set s.t.toNat (some v) s.t.isLt
          t := if s.t = 63#6 then s.t else s.t + 1#6
          phase := if s.t = 63#6 then .winit else s.phase }
   | .uWinit => ∃ h, s.h = held h ∧ t = { s with r := held h, t := 0#6, phase := .round }
   | .uRound => ∃ r, t = { s with
          r := held r
          t := if s.t = 63#6 then s.t else s.t + 1#6
          phase := if s.t = 63#6 then .accum else s.phase }
   | .uAccum => ∃ h, (s.fin = 0#2 ∧ t = { s with h := held h, phase := .idle }) ∨
         (s.fin = 1#2 ∧ t = { s with h := held h, phase := .padlen }) ∨
         (s.fin = 2#2 ∧ t = { s with h := held h, dv := true, opened := false, fin := 0#2, phase := .idle })
   | .uPadlen => t = { s with blk := padlenBlock s.len, fin := 2#2, phase := .loadw } := by
  cases i with
  | init => rw [exec_init] at h; cases h; rfl
  | push cp =>
    rcases Bool.eq_false_or_eq_true s.opened with ho | ho
    swap
    · rw [exec_push_closed cp ho] at h; cases h; exact .inl ⟨ho, rfl⟩
    · by_cases hl : s.len = maxBits
      · rw [exec_push_full cp ho hl] at h; cases h; exact .inr (.inl ⟨ho, hl, rfl⟩)
      · rw [exec_push_open cp ho hl] at h; cases h; exact .inr (.inr ⟨ho, hl, rfl⟩)
  | final =>
    rcases Bool.eq_false_or_eq_true s.opened with ho | ho
    swap
    · rw [exec_final_closed ho] at h; cases h; exact .inl ⟨ho, rfl⟩
    · rw [exec_final_open ho] at h; cases h; exact .inr ⟨ho, rfl⟩
  | rdw k =>
    cases hd : s.dv
    · rw [exec_rdw_invalid k hd] at h; cases h; exact .inl ⟨rfl, rfl⟩
    · obtain ⟨v, -, rfl⟩ := (exec_rdw_valid k hd).1 h; exact .inr ⟨rfl, v, rfl⟩
  | rdhex k =>
    cases hd : s.dv
    · rw [exec_rdhex_invalid k hd] at h; cases h; exact .inl ⟨rfl, rfl⟩
    · obtain ⟨v, -, rfl⟩ := (exec_rdhex_valid k hd).1 h; exact .inr ⟨rfl, _, rfl⟩
  | rdstat => rw [exec_rdstat] at h; cases h; rfl
  | uLoadw =>
    obtain ⟨b, hb, rfl⟩ := exec_uLoadw.1 h
    exact ⟨b, hb, rfl⟩
  | uExpand =>
    obtain ⟨h16, a, b, c, d, ha, hb, hc, hd, rfl⟩ := exec_uExpand.1 h
    exact ⟨_, h16, rfl⟩
  | uWinit =>
    obtain ⟨b, hb, rfl⟩ := exec_uWinit.1 h
    exact ⟨_, hb, rfl⟩
  | uRound =>
    obtain ⟨r, w, hr, hw, rfl⟩ := exec_uRound.1 h
    exact ⟨_, rfl⟩
  | uAccum =>
    obtain ⟨x, r, hx, hr, ⟨hf, rfl⟩ | ⟨hf, rfl⟩ | ⟨hf, rfl⟩⟩ := exec_uAccum.1 h
    · exact ⟨_, .inl ⟨hf, rfl⟩⟩
    · exact ⟨_, .inr (.inl ⟨hf, rfl⟩)⟩
    · exact ⟨_, .inr (.inr ⟨hf, rfl⟩)⟩
  | uPadlen => rw [exec_uPadlen] at h; cases h; rfl

theorem exec_keeps_cmdq {i : Instr} {s t : State} (h : exec i s = .next t) : t.cmdq = s.cmdq := by
  have := exec_spec h
  cases i <;> simp only at this <;> aesop

end Sys2Proof.Machine
end

