-- ==== Sys2Proof/Laws/Step.lean ====
section
/-! SUPPORT. What a step does in each phase, and how runs of steps compose. -/

namespace Sys2Proof.Machine

variable {s t : State}

theorem step_idle_nil (hp : s.phase = .idle) (hq : s.cmdq = []) : step s = .next s := by
  simp [step, engineStep, inTransitionTable, phaseStep, hp, idleStep, hq]

theorem step_idle_legal {w : Word} {rest : List Word} {i : Instr} (hp : s.phase = .idle) (hq : s.cmdq = w :: rest)
    (hd : decode w = .ok i) : step s = exec i { s with cmdq := rest } := by
  simp [step, engineStep, inTransitionTable, phaseStep, hp, idleStep, hq, hd]

theorem step_idle_illegal {w : Word} {rest : List Word} {e : Illegal} (hp : s.phase = .idle) (hq : s.cmdq = w :: rest)
    (hd : decode w = .error e) : step s = .next (State.raiseFault { s with cmdq := rest } .eIllegal) := by
  simp [step, engineStep, inTransitionTable, phaseStep, hp, idleStep, hq, hd]

theorem step_fault_nil (hp : s.phase = .fault) (hq : s.cmdq = []) : step s = .next s := by
  simp [step, engineStep, inTransitionTable, phaseStep, hp, faultStep, hq]

theorem step_fault_rdstat {w : Word} {rest : List Word} (hp : s.phase = .fault) (hq : s.cmdq = w :: rest)
    (hd : decode w = .ok .rdstat) : step s = exec .rdstat { s with cmdq := rest } := by
  simp [step, engineStep, inTransitionTable, phaseStep, hp, faultStep, hq, hd]

theorem step_fault_other {w : Word} {rest : List Word} (hp : s.phase = .fault) (hq : s.cmdq = w :: rest)
    (hd : decode w ≠ .ok .rdstat) : step s = .next { s with cmdq := rest } := by
  simp only [step, engineStep, inTransitionTable, phaseStep, hp, faultStep, hq, if_true]

/-- In a phase and at a T that the transition table has together, the step is the micro-operation of the phase. -/
theorem step_busy {i : Instr} (h : uopOf s.phase = some i) (ht : inTransitionTable s.phase s.t = true) : step s = exec i s := by
  unfold step engineStep phaseStep
  rw [if_pos ht]
  split <;> simp_all [uopOf]

/-- At a T that the transition table does not have in the phase, nothing is performed. -/
theorem step_outside (ht : inTransitionTable s.phase s.t = false) : step s = .fault (.outsideTable s.phase s.t) := by
  simp [step, engineStep, ht]

/-- Only in a busy phase can T be outside the transition table. -/
theorem busy_of_outside (ht : inTransitionTable s.phase s.t = false) : isBusy s.phase = true := by
  cases hp : s.phase <;> simp_all [inTransitionTable, isBusy]

theorem inTransitionTable_loadw (hp : s.phase = .loadw) (ht : s.t = 0#6 ∨ s.t = 63#6) :
    inTransitionTable s.phase s.t = true := by
  simpa [hp, inTransitionTable] using ht

theorem inTransitionTable_expand (hp : s.phase = .expand) (ht : 16 ≤ s.t.toNat) : inTransitionTable s.phase s.t = true := by
  simpa [hp, inTransitionTable] using ht

theorem inTransitionTable_last (hp : s.phase = .winit ∨ s.phase = .accum ∨ s.phase = .padlen) (ht : s.t = 63#6) :
    inTransitionTable s.phase s.t = true := by
  rcases hp with hp | hp | hp <;> simp [hp, inTransitionTable, ht]

/-- Everything a step can do when it answers a next state. -/
theorem step_spec {s t : State} (h : step s = .next t) :
    (∃ i, uopOf s.phase = some i ∧ inTransitionTable s.phase s.t = true ∧ exec i s = .next t) ∨
    (s.cmdq = [] ∧ (s.phase = .idle ∨ s.phase = .fault) ∧ t = s) ∨
    (∃ w rest, s.cmdq = w :: rest ∧ s.phase = .idle ∧
      ((∃ i, decode w = .ok i ∧ exec i { s with cmdq := rest } = .next t) ∨
       (∃ e, decode w = .error e ∧ t = State.raiseFault { s with cmdq := rest } .eIllegal))) ∨
    (∃ w rest, s.cmdq = w :: rest ∧ s.phase = .fault ∧
      ((decode w = .ok .rdstat ∧ t = State.respond { s with cmdq := rest } s.status) ∨
       (decode w ≠ .ok .rdstat ∧ t = { s with cmdq := rest }))) := by
  by_cases hb : isBusy s.phase = true
  · obtain ⟨i, hi, -⟩ := uop_of_busy hb
    by_cases ht : inTransitionTable s.phase s.t = true
    · rw [step_busy hi ht] at h
      exact .inl ⟨i, hi, ht, h⟩
    · rw [step_outside (by simpa using ht)] at h; cases h
  · have hp : s.phase = .idle ∨ s.phase = .fault := by
      cases hs : s.phase <;> simp_all [isBusy]
    right
    cases hq : s.cmdq with
    | nil =>
      left
      refine ⟨rfl, hp, ?_⟩
      rcases hp with hp | hp
      · rw [step_idle_nil hp hq] at h; cases h; rfl
      · rw [step_fault_nil hp hq] at h; cases h; rfl
    | cons w rest =>
      right
      rcases hp with hp | hp
      · left
        refine ⟨w, rest, rfl, hp, ?_⟩
        cases hd : decode w with
        | ok i => rw [step_idle_legal hp hq hd] at h; exact .inl ⟨i, rfl, h⟩
        | error e => rw [step_idle_illegal hp hq hd] at h; cases h; exact .inr ⟨e, rfl, rfl⟩
      · right
        refine ⟨w, rest, rfl, hp, ?_⟩
        by_cases hd : decode w = .ok .rdstat
        · rw [step_fault_rdstat hp hq hd, exec_rdstat] at h; cases h; exact .inl ⟨hd, rfl⟩
        · rw [step_fault_other hp hq hd] at h; cases h; exact .inr ⟨hd, rfl⟩

/-! ### Runs -/

@[simp] theorem run_zero (M : Host.Core) (s : M.State) : M.run 0 s = .next s := rfl

theorem run_succ_next {k : Nat} (h : step s = .next t) : Sys2Proof.core.run (k + 1) s = Sys2Proof.core.run k t := by
  have hc : Sys2Proof.core.step s = .next t := h
  simp only [Host.Core.run, hc]

theorem run_one : Sys2Proof.core.run 1 s = step s := by
  have hc : Sys2Proof.core.step s = step s := rfl
  simp only [Host.Core.run, hc]
  cases step s <;> rfl

/-- A run of `m + n` steps is a run of `m` steps and then one of `n`. -/
theorem run_add (m n : Nat) (h : Sys2Proof.core.run m s = .next t) :
    Sys2Proof.core.run (m + n) s = Sys2Proof.core.run n t := by
  induction m generalizing s with
  | zero => cases h; simp
  | succ m ih =>
    cases hs : step s with
    | next s' =>
      rw [run_succ_next hs] at h
      rw [Nat.add_right_comm, run_succ_next hs, ih h]
    | fault r => exact absurd (show Sys2Proof.core.run (m + 1) s = .fault r by simp [Host.Core.run, Sys2Proof.core, hs]) (by simp [h])
    | refused r => exact absurd (show Sys2Proof.core.run (m + 1) s = .refused r by simp [Host.Core.run, Sys2Proof.core, hs]) (by simp [h])

/-- The first step of a run that answers a next state. -/
theorem run_succ_inv {n : Nat} {s t : State} (h : Sys2Proof.core.run (n + 1) s = .next t) :
    ∃ u, step s = .next u ∧ Sys2Proof.core.run n u = .next t := by
  cases hs : step s with
  | next u => exact ⟨u, rfl, by rw [← run_succ_next hs]; exact h⟩
  | fault r => exact absurd (show Sys2Proof.core.run (n + 1) s = .fault r by simp [Host.Core.run, Sys2Proof.core, hs]) (by simp [h])
  | refused r => exact absurd (show Sys2Proof.core.run (n + 1) s = .refused r by simp [Host.Core.run, Sys2Proof.core, hs]) (by simp [h])

/-- A run and one more step. -/
theorem run_snoc {n : Nat} {u : State} (h : Sys2Proof.core.run n s = .next t) (hs : step t = .next u) :
    Sys2Proof.core.run (n + 1) s = .next u := by
  rw [run_add n 1 h, run_one]
  exact hs

end Sys2Proof.Machine
end

