-- ==== Sys2Proof/Laws/Invariant.lean ====
section
/-! SUPPORT. The invariant under the two changes that several instructions and events share: the streams, and taking a fault. -/

namespace Sys2Proof.Machine

/-- The invariant says nothing about the streams. -/
theorem inv_streams {s : State} (hs : s.Inv) (q r : List Word) : State.Inv { s with cmdq := q, respq := r } :=
  { lenAligned := hs.lenAligned, lenBound := hs.lenBound, flagsExclusive := hs.flagsExclusive, finLegal := hs.finLegal,
    finIdle := hs.finIdle, finPadlen := hs.finPadlen, errFault := hs.errFault, finFault := hs.finFault, busyOpen := hs.busyOpen,
    heldH := hs.heldH, heldBlkIdle := hs.heldBlkIdle, heldBlkBusy := hs.heldBlkBusy, expandIndex := hs.expandIndex,
    restIndex := hs.restIndex, lastIndex := hs.lastIndex,
    heldWExpand := hs.heldWExpand, heldW := hs.heldW, heldR := hs.heldR }

/-- Taking a fault in PH_IDLE keeps the invariant. -/
theorem inv_fault {s : State} (hs : s.Inv) (hp : s.phase = .idle) (c : ErrCode) (hc : c ≠ .noFault) : (s.raiseFault c).Inv := by
  have he : s.err = .noFault := by
    by_contra h; have := hs.errFault.1 h; rw [hp] at this; cases this
  have hf := hs.finIdle hp
  have ht := hs.restIndex (.inl hp)
  constructor <;> simp_all [isBusy]
  · exact hs.lenAligned
  · exact hs.lenBound
  · simpa using hs.flagsExclusive
  · simpa using hs.heldH

/-- Under the invariant (PHASE, T) is in the transition table. -/
theorem inv_inTransitionTable {s : State} (hs : s.Inv) : inTransitionTable s.phase s.t = true := by
  have h1 := hs.restIndex
  have h2 := hs.lastIndex
  have h3 := hs.expandIndex
  cases hp : s.phase <;> simp_all [inTransitionTable]

/-- A block whose cells below `fill` hold values holds values everywhere once padded. -/
theorem allHeld_finalBlock {blk : Vector (Option Byte) 64} {f : BitVec 6} {l} (h : heldBelow blk f.toNat) :
    allHeld (finalBlock blk f l) := by
  intro i
  rw [finalBlock_getElem]
  split_ifs with h1 <;> simp
  exact h i h1

end Sys2Proof.Machine
end

