-- ==== Sys2Proof/Laws/PerInstr.lean ====
section
/-! SUPPORT. For every instruction: its encoding fits its own row of spec/opcode_table.json. -/

namespace Sys2Proof.Laws.MatchesTableRow

/-- The row of the opcode table of an instruction: width in bits, mask, match (30_encoding.md R57, R58). -/
def row : Instr → Nat × Nat × Nat
  | .init => (32, 0xFFFFFFFF, 0x10000000)
  | .push _ => (32, 0xFF000000, 0x20000000)
  | .final => (32, 0xFFFFFFFF, 0x30000000)
  | .rdw _ => (32, 0xFFFFFFF8, 0x40000000)
  | .rdhex _ => (32, 0xFFFFFFC0, 0x50000000)
  | .rdstat => (32, 0xFFFFFFFF, 0x60000000)
  | .uLoadw => (3, 0x7, 0x1)
  | .uExpand => (3, 0x7, 0x2)
  | .uWinit => (3, 0x7, 0x3)
  | .uRound => (3, 0x7, 0x4)
  | .uAccum => (3, 0x7, 0x5)
  | .uPadlen => (3, 0x7, 0x6)

/-- An encoding as a number: its width in bits and its value. -/
def bits : Encoding → Nat × Nat
  | .command w => (32, w.toNat)
  | .phase p => (3, p.toNat)

/-- The encoding has the row's width, and its bits under the row's mask are the row's match. -/
def Statement (i : Instr) : Prop :=
  (bits (encode i)).1 = (row i).1 ∧ (bits (encode i)).2 &&& (row i).2.1 = (row i).2.2

theorem init : Statement .init := by unfold Statement; decide

theorem push (cp : CodePoint) : Statement (.push cp) := by
  refine ⟨rfl, ?_⟩
  have h : (0x20#8 ++ cp : Word) &&& 0xFF000000#32 = 0x20000000#32 :=
    (cover_high _ 0x20000000#32 _ 24 (by decide) (by decide) (by decide)).2 (by
      rw [toNat_pushw]; have := cp.isLt; simp; omega)
  exact congrArg BitVec.toNat h

theorem final : Statement .final := by unfold Statement; decide
theorem rdw (k : BitVec 3) : Statement (.rdw k) := by revert k; unfold Statement; decide
theorem rdhex (i : BitVec 6) : Statement (.rdhex i) := by revert i; unfold Statement; decide
theorem rdstat : Statement .rdstat := by unfold Statement; decide
theorem uLoadw : Statement .uLoadw := by unfold Statement; decide
theorem uExpand : Statement .uExpand := by unfold Statement; decide
theorem uWinit : Statement .uWinit := by unfold Statement; decide
theorem uRound : Statement .uRound := by unfold Statement; decide
theorem uAccum : Statement .uAccum := by unfold Statement; decide
theorem uPadlen : Statement .uPadlen := by unfold Statement; decide

end Sys2Proof.Laws.MatchesTableRow
end

