-- ==== Sys2Proof/Laws/Reference.lean ====
section
/-! SUPPORT. The reference functions: the words of the schedule by index, and the bytes of the padded message by index. -/

namespace Sys2Proof.Machine

/-! ### The schedule -/

theorem schedList_length (b : Vector Byte 64) (n : Nat) : (schedList b n).length = 16 + n := by
  induction n with
  | zero => simp [schedList]
  | succ n ih => simp [schedList, ih]; omega

theorem schedList_getD_succ (b : Vector Byte 64) (n i : Nat) (h : i < 16 + n) :
    (schedList b (n + 1)).getD i 0#32 = (schedList b n).getD i 0#32 := by
  have hl := schedList_length b n
  simp only [schedList]
  rw [List.getD_append _ _ _ _ (by omega)]

theorem schedList_getD (b : Vector Byte 64) (n m i : Nat) (hm : n ≤ m) (h : i < 16 + n) :
    (schedList b m).getD i 0#32 = (schedList b n).getD i 0#32 := by
  induction m, hm using Nat.le_induction with
  | base => rfl
  | succ m hm ih => rw [schedList_getD_succ b m i (by omega), ih]

theorem schedList_getD_last (b : Vector Byte 64) (n : Nat) :
    (schedList b (n + 1)).getD (16 + n) 0#32 =
      expandWord ((schedList b n).getD n 0#32) ((schedList b n).getD (n + 1) 0#32) ((schedList b n).getD (n + 9) 0#32)
        ((schedList b n).getD (n + 14) 0#32) := by
  have hl := schedList_length b n
  simp only [schedList]
  rw [List.getD_append_right _ _ _ _ (by omega), hl]; simp

theorem sched_getElem (b : Vector Byte 64) (i : Nat) (h : i < 64) (n : Nat) (hn : n ≤ 48) (hi : i < 16 + n) :
    (sched b)[i] = (schedList b n).getD i 0#32 := by
  simp only [sched, Vector.getElem_ofFn]
  exact schedList_getD b n 48 i hn hi

/-! ### The padded message -/

theorem replicate_zero_bits (p : Nat) : (List.replicate p 0x00#8).flatMap byteBits = List.replicate (8 * p) false := by
  induction p with
  | zero => rfl
  | succ p ih =>
    rw [List.replicate_succ, List.flatMap_cons, ih, show 8 * (p + 1) = 8 + 8 * p by omega, List.replicate_add]
    rfl

/-- Below the message's length, the padded message is the message. -/
theorem padBytes_getD_lt (m : List Byte) (k : Nat) (h : k < m.length) : (padBytes m).getD k 0#8 = m[k] := by
  simp only [padBytes]
  rw [List.append_assoc, List.getD_append _ _ _ _ h, List.getD_eq_getElem _ _ h]

/-- From the message's length on, the padded message is `0x80`, zeros, the length. -/
theorem padBytes_getD_ge (m : List Byte) (k : Nat) (h : m.length ≤ k) :
    (padBytes m).getD k 0#8 =
      if k = m.length then 0x80#8
      else if k < m.length + 1 + padZeroBytes m.length then 0#8
      else (lengthBytes (8 * m.length)).getD (k - (m.length + 1 + padZeroBytes m.length)) 0#8 := by
  simp only [padBytes]
  rw [List.append_assoc, List.getD_append_right _ _ _ _ h]
  obtain ⟨d, rfl⟩ : ∃ d, k = m.length + d := ⟨k - m.length, by omega⟩
  rw [show m.length + d - m.length = d by omega]
  cases d with
  | zero => simp
  | succ d =>
    simp only [List.cons_append, List.getD_cons_succ]
    rw [if_neg (by omega)]
    split_ifs with h1
    · rw [List.getD_append _ _ _ _ (by simp; omega)]
      simp
    · rw [List.getD_append_right _ _ _ _ (by simp; omega)]
      congr 1; simp; omega

theorem lengthBytes_getD (l i : Nat) (h : i < 8) : (lengthBytes l).getD i 0#8 = lenByte (BitVec.ofNat 64 l) i := by
  simp [lengthBytes, h]

theorem padlenBlock_held (len : BitVec 64) :
    padlenBlock len = held (Vector.ofFn fun j : Fin 64 => if j.val < 56 then 0x00#8 else lenByte len (j.val - 56)) := by
  ext i hi : 1
  simp only [padlenBlock, Vector.getElem_ofFn, held_getElem]
  split_ifs <;> rfl

end Sys2Proof.Machine
end

