-- ==== Sys2Proof/Laws/Run.lean ====
section
/-! SUPPORT. What each event leaves of a run, how a run is followed event by event, and that the engine never reads RESPQ. -/

namespace Sys2Proof.Machine

variable {s t : State} {r r' : Run}

/-! ### Fields -/

@[simp] theorem start_engine (s : State) (ws : List Word) : (Run.start s ws).engine = s := rfl
@[simp] theorem start_toAppend (s : State) (ws : List Word) : (Run.start s ws).toAppend = ws := rfl
@[simp] theorem start_responses (s : State) (ws : List Word) : (Run.start s ws).responses = [] := rfl

@[simp] theorem stepped_engine (r : Run) (t : State) : (r.stepped t).engine = t := rfl
@[simp] theorem stepped_toAppend (r : Run) (t : State) : (r.stepped t).toAppend = r.toAppend := rfl
@[simp] theorem stepped_responses (r : Run) (t : State) :
    (r.stepped t).responses = r.responses ++ t.respq.drop r.engine.respq.length := rfl

@[simp] theorem appendNext_responses (r : Run) : r.appendNext.responses = r.responses := by
  unfold Run.appendNext; split <;> rfl

@[simp] theorem appendNext_toAppend (r : Run) : r.appendNext.toAppend = r.toAppend.tail := by
  unfold Run.appendNext; split <;> simp_all

/-! ### Following a run -/

/-- A run has ended exactly when every word has been appended and no step is enabled. -/
theorem ended_iff : r.ended = true ↔ r.toAppend = [] ∧ r.engine.cmdq = [] ∧ isBusy r.engine.phase = false := by
  simp only [Run.ended, Bool.and_eq_true, List.isEmpty_iff, Bool.not_eq_true']; tauto

theorem follow_ended (h : r.ended = true) (es : List RunEvent) : r.follow es = .next r := by
  cases es <;> simp [Run.follow, h]

/-- The first event of a run that has not ended. -/
theorem follow_cons (e : RunEvent) (es : List RunEvent) (h : r.ended = false) (he : e.apply r = .next r') :
    r.follow (e :: es) = r'.follow es := by
  simp [Run.follow, h, he]

/-- The first event of a run that goes on to answer: it ended before, or the event answers a run that goes on. -/
theorem follow_cons_inv {e : RunEvent} {es : List RunEvent} (h : r.follow (e :: es) = .next r') :
    (r.ended = true ∧ r' = r) ∨ (∃ u, e.apply r = .next u ∧ u.follow es = .next r') := by
  by_cases hr : r.ended = true
  · rw [follow_ended hr] at h; cases h; exact .inl ⟨hr, rfl⟩
  · right
    cases he : e.apply r with
    | next u => exact ⟨u, rfl, by rwa [follow_cons e es (by simpa using hr) he] at h⟩
    | fault c => simp [Run.follow, hr, he] at h
    | refused c => simp [Run.follow, hr, he] at h

/-- Following a run through `es` and then `es'`. -/
theorem follow_append (es es' : List RunEvent) (h : r.follow es = .next r') : r.follow (es ++ es') = r'.follow es' := by
  induction es generalizing r with
  | nil => cases h; rfl
  | cons e es ih =>
    rcases follow_cons_inv h with ⟨hr, rfl⟩ | ⟨u, he, hu⟩
    · rw [follow_ended hr, follow_ended hr]
    · by_cases hr : r.ended = true
      · rw [follow_ended hr] at h; cases h; rw [follow_ended hr, follow_ended hr]
      · rw [List.cons_append, follow_cons e _ (by simpa using hr) he]; exact ih hu

/-! ### The engine only appends to RESPQ -/

/-- An instruction appends the same words to RESPQ whatever RESPQ holds, and does the same otherwise (10_state.md R25). -/
theorem exec_responses {i : Instr} (h : exec i s = .next t) :
    ∃ new, t.respq = s.respq ++ new ∧ ∀ q, exec i { s with respq := q } = .next { t with respq := q ++ new } := by
  cases i with
  | init => rw [exec_init] at h; cases h; exact ⟨[], by simp, fun q => by rw [exec_init]; simp⟩
  | push cp =>
    rcases Bool.eq_false_or_eq_true s.opened with ho | ho
    · by_cases hl : s.len = maxBits
      · rw [exec_push_full cp ho hl] at h; cases h
        exact ⟨[], by simp, fun q => by rw [exec_push_full (s := { s with respq := q }) cp ho hl]; simp [State.raiseFault]⟩
      · rw [exec_push_open cp ho hl] at h; cases h
        exact ⟨[], by simp, fun q => by rw [exec_push_open (s := { s with respq := q }) cp ho hl, List.append_nil]; rfl⟩
    · rw [exec_push_closed cp ho] at h; cases h
      exact ⟨[], by simp, fun q => by rw [exec_push_closed (s := { s with respq := q }) cp ho]; simp [State.raiseFault]⟩
  | final =>
    rcases Bool.eq_false_or_eq_true s.opened with ho | ho
    · rw [exec_final_open ho] at h; cases h
      exact ⟨[], by simp, fun q => by rw [exec_final_open (s := { s with respq := q }) ho, List.append_nil]; rfl⟩
    · rw [exec_final_closed ho] at h; cases h
      exact ⟨[], by simp, fun q => by rw [exec_final_closed (s := { s with respq := q }) ho]; simp [State.raiseFault]⟩
  | rdw k =>
    rcases Bool.eq_false_or_eq_true s.dv with hd | hd
    · obtain ⟨v, hv, rfl⟩ := (exec_rdw_valid k hd).1 h
      exact ⟨[v], rfl, fun q => (exec_rdw_valid (s := { s with respq := q }) k hd).2 ⟨v, hv, rfl⟩⟩
    · rw [exec_rdw_invalid k hd] at h; cases h
      exact ⟨[], by simp, fun q => by rw [exec_rdw_invalid (s := { s with respq := q }) k hd]; simp [State.raiseFault]⟩
  | rdhex k =>
    rcases Bool.eq_false_or_eq_true s.dv with hd | hd
    · obtain ⟨v, hv, rfl⟩ := (exec_rdhex_valid k hd).1 h
      exact ⟨_, rfl, fun q => (exec_rdhex_valid (s := { s with respq := q }) k hd).2 ⟨v, hv, rfl⟩⟩
    · rw [exec_rdhex_invalid k hd] at h; cases h
      exact ⟨[], by simp, fun q => by rw [exec_rdhex_invalid (s := { s with respq := q }) k hd]; simp [State.raiseFault]⟩
  | rdstat => rw [exec_rdstat] at h; cases h; exact ⟨[s.status], rfl, fun q => rfl⟩
  | uLoadw =>
    obtain ⟨b, hb, rfl⟩ := exec_uLoadw.1 h
    exact ⟨[], by simp, fun q => exec_uLoadw.2 ⟨b, hb, by simp⟩⟩
  | uExpand =>
    obtain ⟨h16, a, b, c, d, ha, hb, hc, hd, rfl⟩ := exec_uExpand.1 h
    exact ⟨[], by simp, fun q => exec_uExpand.2 ⟨h16, a, b, c, d, ha, hb, hc, hd, by simp⟩⟩
  | uWinit =>
    obtain ⟨b, hb, rfl⟩ := exec_uWinit.1 h
    exact ⟨[], by simp, fun q => exec_uWinit.2 ⟨b, hb, by simp⟩⟩
  | uRound =>
    obtain ⟨v, w, hr, hw, rfl⟩ := exec_uRound.1 h
    exact ⟨[], by simp, fun q => exec_uRound.2 ⟨v, w, hr, hw, by simp⟩⟩
  | uAccum =>
    obtain ⟨x, v, hx, hr, ⟨hf, rfl⟩ | ⟨hf, rfl⟩ | ⟨hf, rfl⟩⟩ := exec_uAccum.1 h
    · exact ⟨[], by simp, fun q => exec_uAccum.2 ⟨x, v, hx, hr, .inl ⟨hf, by simp⟩⟩⟩
    · exact ⟨[], by simp, fun q => exec_uAccum.2 ⟨x, v, hx, hr, .inr (.inl ⟨hf, by simp⟩)⟩⟩
    · exact ⟨[], by simp, fun q => exec_uAccum.2 ⟨x, v, hx, hr, .inr (.inr ⟨hf, by simp⟩)⟩⟩
  | uPadlen => rw [exec_uPadlen] at h; cases h; exact ⟨[], by simp, fun q => by rw [exec_uPadlen]; simp⟩

/-- A step appends the same words to RESPQ whatever RESPQ holds, and does the same otherwise (10_state.md R25). -/
theorem step_responses (h : step s = .next t) :
    ∃ new, t.respq = s.respq ++ new ∧ ∀ q, step { s with respq := q } = .next { t with respq := q ++ new } := by
  rcases step_spec h with ⟨i, hi, ht, h⟩ | ⟨hq, hp, rfl⟩ | ⟨w, rest, hq, hp, ⟨i, hd, h⟩ | ⟨e, hd, rfl⟩⟩ |
    ⟨w, rest, hq, hp, ⟨hd, rfl⟩ | ⟨hd, rfl⟩⟩
  · obtain ⟨new, h1, h2⟩ := exec_responses h
    exact ⟨new, h1, fun q => (step_busy (s := { s with respq := q }) hi ht).trans (h2 q)⟩
  · refine ⟨[], by simp, fun q => ?_⟩
    rw [List.append_nil]
    rcases hp with hp | hp
    · exact step_idle_nil (s := { t with respq := q }) hp hq
    · exact step_fault_nil (s := { t with respq := q }) hp hq
  · obtain ⟨new, h1, h2⟩ := exec_responses h
    exact ⟨new, h1, fun q => (step_idle_legal (s := { s with respq := q }) hp hq hd).trans (h2 q)⟩
  · exact ⟨[], by simp, fun q => by
      rw [step_idle_illegal (s := { s with respq := q }) hp hq hd]; simp [State.raiseFault]⟩
  · exact ⟨[s.status], rfl, fun q => step_fault_rdstat (s := { s with respq := q }) hp hq hd⟩
  · exact ⟨[], by simp, fun q => by rw [step_fault_other (s := { s with respq := q }) hp hq hd]; simp⟩

end Sys2Proof.Machine
end

