-- ==== Sys2Proof/Machine/Assembly.lean ====
section
/-! DEFINITION. The textual form of a command stream (30_encoding.md R63, R64): one command per line, read into the assembler's
lines. What the rules leave open of it is assumption 14. -/

namespace Sys2Proof.Machine

/-- The character literal's delimiter (30_encoding.md R63). -/
def apostrophe : Char := Char.ofNat 0x27

/-- The delimiter of the string of `pushs` and `compute` (30_encoding.md R64). -/
def quotation : Char := Char.ofNat 0x22

/-- Blanks before a mnemonic, an operand or the end of a line mean nothing. -/
def skipBlanks (l : List Char) : List Char := l.dropWhile fun c => c.toNat = 0x20 || c.toNat = 0x09

/-- "`#` starts a comment": is nothing but blanks and a comment left? -/
def atLineEnd (l : List Char) : Bool :=
  match skipBlanks l with
  | [] => true
  | c :: _ => c = '#'

/-- The value of a decimal or hexadecimal digit. -/
def digitValue (c : Char) : Option Nat :=
  let n := c.toNat
  if 0x30 ≤ n ∧ n ≤ 0x39 then some (n - 0x30)
  else if 0x61 ≤ n ∧ n ≤ 0x66 then some (n - 0x57)
  else if 0x41 ≤ n ∧ n ≤ 0x46 then some (n - 0x37)
  else none

/-- Digits in a base, with the value so far; the rest of the line. -/
def readDigits (base : Nat) : List Char → Option Nat → Option (Nat × List Char)
  | [], acc => acc.map fun n => (n, [])
  | c :: cs, acc =>
    match digitValue c with
    | some d =>
      if d < base then readDigits base cs (some (acc.getD 0 * base + d))
      else acc.map fun n => (n, c :: cs)
    | none => acc.map fun n => (n, c :: cs)

/-- "Numbers are decimal or `0x` hexadecimal; a character literal denotes the code point of" its character (30_encoding.md
R63). -/
def readNumber (l : List Char) : Option (Nat × List Char) :=
  match l with
  | c :: rest =>
    if c = apostrophe then
      match rest with
      | x :: d :: rest' => if d = apostrophe then some (x.toNat, rest') else none
      | _ => none
    else if c = '0' then
      match rest with
      | x :: rest' => if x = 'x' then readDigits 16 rest' none else readDigits 10 l none
      | [] => some (0, [])
    else readDigits 10 l none
  | [] => none

/-- A number that ends its line. -/
def lastNumber (l : List Char) : Option Nat :=
  match readNumber (skipBlanks l) with
  | some (n, rest) => if atLineEnd rest then some n else none
  | none => none

/-- Numbers separated by commas, to the end of the line; the count bounds them (30_encoding.md R64, `pushb`). -/
def lastNumbers : Nat → List Char → Option (List Nat)
  | 0, _ => none
  | k + 1, l =>
    match readNumber (skipBlanks l) with
    | none => none
    | some (n, rest) =>
      if atLineEnd rest then some [n]
      else
        match skipBlanks rest with
        | c :: rest' => if c = ',' then (lastNumbers k rest').map fun ns => n :: ns else none
        | [] => none

/-- A quoted string that ends its line, as the code points of its characters, untruncated (30_encoding.md R64). -/
def lastString (l : List Char) : Option (List Nat) :=
  match skipBlanks l with
  | c :: rest =>
    if c = quotation then
      match rest.dropWhile fun x => x ≠ quotation with
      | _ :: after =>
        if atLineEnd after then some ((rest.takeWhile fun x => x ≠ quotation).map Char.toNat) else none
      | [] => none
    else none
  | [] => none

/-- "mnemonic in lower or upper case" (30_encoding.md R63). -/
def isMnemonic (word lower upper : List Char) : Bool := word == lower || word == upper

/-- A character of a mnemonic: a letter, or the dot of `.word`. -/
def isMnemonicChar (c : Char) : Bool :=
  (0x61 ≤ c.toNat && c.toNat ≤ 0x7A) || (0x41 ≤ c.toNat && c.toNat ≤ 0x5A) || c = '.'

/-- A line with its mnemonic taken off: `word` and the rest. -/
def parseCommand (word rest : List Char) : Option AsmLine :=
  if isMnemonic word ['i', 'n', 'i', 't'] ['I', 'N', 'I', 'T'] then (if atLineEnd rest then some .init else none)
  else if isMnemonic word ['f', 'i', 'n', 'a', 'l'] ['F', 'I', 'N', 'A', 'L'] then (if atLineEnd rest then some .final else none)
  else if isMnemonic word ['r', 'd', 's', 't', 'a', 't'] ['R', 'D', 'S', 'T', 'A', 'T'] then
    (if atLineEnd rest then some .rdstat else none)
  else if isMnemonic word ['p', 'u', 's', 'h'] ['P', 'U', 'S', 'H'] then (lastNumber rest).map .push
  else if isMnemonic word ['r', 'd', 'w'] ['R', 'D', 'W'] then (lastNumber rest).map .rdw
  else if isMnemonic word ['r', 'd', 'h', 'e', 'x'] ['R', 'D', 'H', 'E', 'X'] then (lastNumber rest).map .rdhex
  else if isMnemonic word ['.', 'w', 'o', 'r', 'd'] ['.', 'W', 'O', 'R', 'D'] then (lastNumber rest).map .word
  else if isMnemonic word ['p', 'u', 's', 'h', 's'] ['P', 'U', 'S', 'H', 'S'] then (lastString rest).map .pushs
  else if isMnemonic word ['p', 'u', 's', 'h', 'b'] ['P', 'U', 'S', 'H', 'B'] then (lastNumbers rest.length rest).map .pushb
  else if isMnemonic word ['d', 'i', 'g', 'e', 's', 't'] ['D', 'I', 'G', 'E', 'S', 'T'] then
    (if atLineEnd rest then some .digest else none)
  else if isMnemonic word ['h', 'e', 'x', 'd', 'i', 'g', 'e', 's', 't'] ['H', 'E', 'X', 'D', 'I', 'G', 'E', 'S', 'T'] then
    (if atLineEnd rest then some .hexdigest else none)
  else if isMnemonic word ['c', 'o', 'm', 'p', 'u', 't', 'e'] ['C', 'O', 'M', 'P', 'U', 'T', 'E'] then
    (lastString rest).map .compute
  else none

/-- The words of one line of text: none at all for a blank or comment line, `none` for an assembler error. -/
def assembleText (line : List Char) : Option (List Word) :=
  if atLineEnd line then some []
  else
    let l := skipBlanks line
    (parseCommand (l.takeWhile isMnemonicChar) (l.dropWhile isMnemonicChar)).bind AsmLine.assemble

/-- The command stream of a program, line by line; one error is an error of the whole. -/
def assembleProgram : List (List Char) → Option (List Word)
  | [] => some []
  | line :: lines =>
    match assembleText line, assembleProgram lines with
    | some ws, some rest => some (ws ++ rest)
    | _, _ => none

end Sys2Proof.Machine
end

