-- ==== Sys2Proof/Tests/Slice0.lean ====
section
/-! SUPPORT. The model's own tests: well-formedness, decoding, single steps with results from the spec's vectors, and for each
statement with hypotheses a witness that they can be met. -/

namespace Sys2Proof.Tests

open Sys2Proof Sys2Proof.Machine

/-- Did the instruction answer a next state with this property? -/
def after (r : Result) (p : State → Bool) : Bool :=
  match r with
  | .next t => p t
  | .fault _ => false
  | .refused _ => false

/-- An engine with every register file holding values: H and R the constants, W zeros, BLK 64 times `a`, a message open. -/
def ready : State :=
  { State.reset with
    h := held h0Table
    r := held h0Table
    w := Vector.replicate 64 (some 0#32)
    blk := Vector.replicate 64 (some 0x61#8)
    opened := true }

/-! ### Well-formedness -/

theorem test_wf_push_too_large : (AsmLine.push (2 ^ 24)).wellFormed = false := by decide
theorem test_wf_push_largest : (AsmLine.push (2 ^ 24 - 1)).wellFormed = true := by decide
theorem test_wf_rdw_too_large : (AsmLine.rdw 8).wellFormed = false := by decide
theorem test_wf_rdhex_too_large : (AsmLine.rdhex 64).wellFormed = false := by decide
theorem test_wf_word_too_large : (AsmLine.word (2 ^ 32)).wellFormed = false := by decide
theorem test_wf_pushs_too_large : (AsmLine.pushs [0x61, 2 ^ 24]).wellFormed = false := by decide
theorem test_wf_pushb_too_large : (AsmLine.pushb [255, 256]).wellFormed = false := by decide
theorem test_wf_compute_too_large : (AsmLine.compute [2 ^ 24]).wellFormed = false := by decide
theorem test_wf_uops_have_no_command :
    Instr.uLoadw.isCommand = false ∧ Instr.uExpand.isCommand = false ∧ Instr.uWinit.isCommand = false ∧
    Instr.uRound.isCommand = false ∧ Instr.uAccum.isCommand = false ∧ Instr.uPadlen.isCommand = false := by decide

/-! ### Decoding: words written out from 30_encoding.md R50 to R58, and 95_test_vectors.md section 3.7 -/

/-- op 0001, 28 zero bits. -/
theorem test_decode_init : decode 0b00010000000000000000000000000000#32 = .ok .init := by decide
/-- op 0010, four zero bits, `cp = 0x20AC`. -/
theorem test_decode_push : decode 0b00100000000000000010000010101100#32 = .ok (.push 0x20AC#24) := by decide
/-- op 0011, 28 zero bits. -/
theorem test_decode_final : decode 0b00110000000000000000000000000000#32 = .ok .final := by decide
/-- op 0100, 25 zero bits, `k = 5`. -/
theorem test_decode_rdw : decode 0b01000000000000000000000000000101#32 = .ok (.rdw 5#3) := by decide
/-- op 0101, 22 zero bits, `i = 38`. -/
theorem test_decode_rdhex : decode 0b01010000000000000000000000100110#32 = .ok (.rdhex 38#6) := by decide
/-- op 0110, 28 zero bits. -/
theorem test_decode_rdstat : decode 0b01100000000000000000000000000000#32 = .ok .rdstat := by decide
/-- The six busy codes of PHASE. -/
theorem test_decode_uops :
    decodeTableWord 8 0b001 = some .uLoadw ∧ decodeTableWord 8 0b010 = some .uExpand ∧
    decodeTableWord 8 0b011 = some .uWinit ∧ decodeTableWord 8 0b100 = some .uRound ∧
    decodeTableWord 8 0b101 = some .uAccum ∧ decodeTableWord 8 0b110 = some .uPadlen ∧
    decodeTableWord 8 0b000 = none ∧ decodeTableWord 8 0b111 = none := by decide
theorem test_decode_illegal :
    decode 0x70000000#32 = .error (.unusedOp 7#4) ∧ decode 0x80000000#32 = .error (.unusedOp 8#4) ∧
    decode 0x10000001#32 = .error (.mustBeZero 1#4) ∧ decode 0x2F000000#32 = .error (.mustBeZero 2#4) ∧
    decode 0x30000001#32 = .error (.mustBeZero 3#4) ∧ decode 0x50000040#32 = .error (.mustBeZero 5#4) ∧
    decode 0x60000100#32 = .error (.mustBeZero 6#4) ∧ decode 0x1FFFFFFF#32 = .error (.mustBeZero 1#4) := by decide

/-! ### The assembler's text: 30_encoding.md R63 and R64 -/

theorem test_text_push_literal :
    assembleText ['p', 'u', 's', 'h', ' ', apostrophe, 'a', apostrophe] = some [0x20000061#32] := by decide
theorem test_text_push_hex_comment :
    assembleText ['P', 'U', 'S', 'H', ' ', '0', 'x', '2', '0', 'A', 'C', ' ', '#', ' ', 'x'] = some [0x200020AC#32] := by decide
theorem test_text_rdhex_decimal : assembleText ['r', 'd', 'h', 'e', 'x', ' ', '6', '3'] = some [0x5000003F#32] := by decide
theorem test_text_rdw_out_of_range : assembleText ['r', 'd', 'w', ' ', '8'] = none := by decide
theorem test_text_pushs :
    assembleText ['p', 'u', 's', 'h', 's', ' ', quotation, 'a', '#', quotation] = some [0x20000061#32, 0x20000023#32] := by decide
theorem test_text_pushb :
    assembleText ['p', 'u', 's', 'h', 'b', ' ', '0', ',', ' ', '2', '5', '5'] = some [0x20000000#32, 0x200000FF#32] := by decide
theorem test_text_program :
    assembleProgram [['i', 'n', 'i', 't'], ['#'], ['f', 'i', 'n', 'a', 'l']] = some [0x10000000#32, 0x30000000#32] := by decide

/-! ### Word functions: 95_test_vectors.md section 3.1 -/

theorem test_rotr : rotr 0x12345678#32 7 = 0xF02468AC#32 ∧ rotr 1#32 1 = 0x80000000#32 := by decide
theorem test_shr : shr 0x80000000#32 3 = 0x10000000#32 := by decide
theorem test_add32 : add32 0x6A09E667#32 0xBB67AE85#32 = 0x257194EC#32 := by decide
theorem test_sums : sum0 0x12345678#32 = 0x66146474#32 ∧ sum1 0x12345678#32 = 0x3561ABDA#32 := by decide
theorem test_sigmas : sigma0 0x61626380#32 = 0x940E90EF#32 ∧ sigma1 0x00000018#32 = 0x000F0000#32 := by decide
theorem test_ch_maj :
    ch 0x510E527F#32 0x9B05688C#32 0x1F83D9AB#32 = 0x1F85C98C#32 ∧
    maj 0x6A09E667#32 0xBB67AE85#32 0x3C6EF372#32 = 0x3A6FE667#32 := by decide

/-! ### Single steps: expected values from the rules and from 95_test_vectors.md sections 3.2 to 3.9 -/

/-- After `init` STATUS is `00000001` (E2), whatever OPEN, DV and LEN were. -/
theorem test_init : after (exec .init { ready with dv := true, len := 24#64 }) (fun t =>
    t.status = 1#32 && t.h[0] = some 0x6A09E667#32 && t.h[7] = some 0x5BE0CD19#32) = true := by decide

/-- Section 3.2, length limit: at `LEN = 0xfffffffffffffff0` a PUSH is accepted. -/
theorem test_push_below_limit :
    after (exec (.push 0x41#24) { ready with len := 0xFFFFFFFFFFFFFFF0#64 }) (fun t =>
      t.blk[62] = some 0x41#8 && t.len = 0xFFFFFFFFFFFFFFF8#64 && t.phase = .idle && t.status = 0x00003F01#32) = true := by
  decide

/-- Section 3.2, length limit: at `LEN = 0xfffffffffffffff8` a PUSH faults with STATUS `0x00003f7d`. -/
theorem test_push_at_limit :
    after (exec (.push 0x41#24) { ready with len := 0xFFFFFFFFFFFFFFF8#64 }) (fun t =>
      t.blk = ready.blk && t.len = 0xFFFFFFFFFFFFFFF8#64 && t.status = 0x00003F7D#32) = true := by
  decide

/-- Section 3.2, `n = 56`: the marker at byte 56, zeros after it, FIN 1. -/
theorem test_final_56 : after (exec .final { ready with len := 448#64 }) (fun t =>
    t.blk[55] = some 0x61#8 && t.blk[56] = some 0x80#8 && t.blk[63] = some 0x00#8 && t.fin = 1#2) = true := by decide

/-- Section 3.2, `n = 55`: the marker at byte 55, the length `01 b8` at once, FIN 2. -/
theorem test_final_55 : after (exec .final { ready with len := 440#64 }) (fun t =>
    t.blk[54] = some 0x61#8 && t.blk[55] = some 0x80#8 && t.blk[56] = some 0x00#8 && t.blk[62] = some 0x01#8 &&
    t.blk[63] = some 0xB8#8 && t.fin = 2#2) = true := by decide

/-- Section 3.6: `rdw 7` answers the last word of H and nothing else changes. -/
theorem test_rdw : after (exec (.rdw 7#3) { ready with opened := false, dv := true }) (fun t =>
    t.respq = [0x5BE0CD19#32] && t.phase = .idle) = true := by decide

/-- X5: `init; rdw 0` faults with no response and STATUS `00000079`. -/
theorem test_rdw_no_digest : after (exec (.rdw 0#3) ready) (fun t => t.respq = [] && t.status = 0x79#32) = true := by decide

/-- Section 3.6, zero padding: with `H[0] = 084fed08`, `rdhex 0` answers `0x30` and `rdhex 4` answers `e`. -/
theorem test_rdhex :
    after (exec (.rdhex 0#6) { ready with dv := true, h := ready.h.set 0 (some 0x084FED08#32) }) (fun t => t.respq = [0x30#32])
      = true ∧
    after (exec (.rdhex 4#6) { ready with dv := true, h := ready.h.set 0 (some 0x084FED08#32) }) (fun t => t.respq = [0x65#32])
      = true := by
  decide

/-- Section 3.6: `rdhex 63` is the last nibble of `H[7]`: `9` of `5be0cd19`. -/
theorem test_rdhex_last : after (exec (.rdhex 63#6) { ready with dv := true }) (fun t => t.respq = [0x39#32]) = true := by decide

/-- E1: `00000000` after reset. -/
theorem test_rdstat : after (exec .rdstat State.reset) (fun t => t.respq = [0#32]) = true := by decide

/-- E4: STATUS `00000302` after a digest of `abc`. -/
theorem test_rdstat_digest : after (exec .rdstat { ready with opened := false, dv := true, len := 24#64 }) (fun t =>
    t.respq = [0x302#32]) = true := by decide

/-- Section 4.1: the block of `abc` has `W[0] = 61626380`. -/
theorem test_uLoadw :
    after (exec .uLoadw { ready with blk := (ready.blk.set 1 (some 0x62#8)).set 2 (some 0x63#8) |>.set 3 (some 0x80#8) }) (fun t =>
      t.w[0] = some 0x61626380#32 && t.w[1] = some 0x61616161#32 && t.w[16] = some 0#32 && t.t = 16#6 && t.phase = .expand)
      = true := by
  decide

/-- Section 3.4, `abc`: `W[17] = 000f0000` from `W[15] = 00000018`. -/
theorem test_uExpand :
    after (exec .uExpand { ready with phase := .expand, t := 17#6, w := ready.w.set 15 (some 0x18#32) }) (fun t =>
      t.w[17] = some 0x000F0000#32 && t.t = 18#6 && t.phase = .expand) = true := by
  decide

/-- Section 3.4, `abc`: `W[63] = 12b1edeb`, the last expansion step. -/
theorem test_uExpand_last :
    after (exec .uExpand { ready with
      phase := .expand
      t := 63#6
      w := (((ready.w.set 47 (some 0x065C43DA#32)).set 48 (some 0xFB3E89CB#32)).set 56 (some 0xEF57B9CD#32)).set 61
        (some 0x668B2FF8#32) }) (fun t => t.w[63] = some 0x12B1EDEB#32 && t.t = 63#6 && t.phase = .winit) = true := by
  decide

theorem test_uWinit : after (exec .uWinit { ready with phase := .winit, t := 63#6 }) (fun t =>
    t.r[0] = some 0x6A09E667#32 && t.r[7] = some 0x5BE0CD19#32 && t.t = 0#6 && t.phase = .round) = true := by decide

/-- Section 3.5: round 0 of `abc`. -/
theorem test_uRound :
    after (exec .uRound { ready with phase := .round, w := ready.w.set 0 (some 0x61626380#32) }) (fun t =>
      t.r = held #v[0x5D6AEBCD#32, 0x6A09E667#32, 0xBB67AE85#32, 0x3C6EF372#32, 0xFA2A4622#32, 0x510E527F#32, 0x9B05688C#32,
        0x1F83D9AB#32] && t.t = 1#6 && t.phase = .round) = true := by
  decide

/-- Section 4.1: round 63 of `abc`, with `W[63] = 12b1edeb`. -/
theorem test_uRound_last :
    after (exec .uRound { ready with
      phase := .round
      t := 63#6
      r := held #v[0xD39A2165#32, 0x04D24D6C#32, 0xB85E2CE9#32, 0xB6AE8FFF#32, 0xFB121210#32, 0x948D25B6#32, 0x961F4894#32,
        0xB21BAD3D#32]
      w := ready.w.set 63 (some 0x12B1EDEB#32) }) (fun t =>
      t.r[0] = some 0x506E3058#32 && t.r[4] = some 0x5EF50F24#32 && t.t = 63#6 && t.phase = .accum) = true := by
  decide

/-- Section 3.6: U_ACCUM of `abc`, words 0 and 1 (the second wraps). -/
theorem test_uAccum :
    after (exec .uAccum { ready with
      phase := .accum
      fin := 2#2
      r := (ready.r.set 0 (some 0x506E3058#32)).set 1 (some 0xD39A2165#32) }) (fun t =>
      t.h[0] = some 0xBA7816BF#32 && t.h[1] = some 0x8F01CFEA#32 && t.dv && !t.opened && t.fin = 0#2 && t.phase = .idle)
      = true := by
  decide

/-- Section 3.2, `n = 56`: the second block is 56 zeros and `01 c0`. -/
theorem test_uPadlen : after (exec .uPadlen { ready with phase := .padlen, fin := 1#2, len := 448#64 }) (fun t =>
    t.blk[0] = some 0x00#8 && t.blk[55] = some 0x00#8 && t.blk[62] = some 0x01#8 && t.blk[63] = some 0xC0#8 && t.fin = 2#2 &&
    t.phase = .loadw) = true := by decide

/-- X10: an illegal word faults with `E_ILLEGAL` though no message is open, STATUS `00000074`. -/
theorem test_step_illegal : after (step { State.reset with cmdq := [0x21000061#32] }) (fun t =>
    t.status = 0x74#32 && t.cmdq = []) = true := by decide

/-- X16: in PH_FAULT an `init` is discarded. -/
theorem test_step_fault_discards :
    after (step { State.reset with phase := .fault, err := .eSeq, cmdq := [0x10000000#32] }) (fun t =>
      t = { State.reset with phase := .fault, err := .eSeq }) = true := by
  decide

/-! ### The first instruction after reset, placed by withFetchWord -/

theorem test_fetch_init : after (step (State.reset.withFetchWord 32 0x10000000)) (fun t => t.opened && t.cmdq = []) = true := by
  decide
theorem test_fetch_rdstat : after (step (State.reset.withFetchWord 32 0x60000000)) (fun t => t.respq = [0#32]) = true := by decide
theorem test_fetch_uLoadw : after (step (State.reset.withFetchWord 8 1)) (fun t => t.phase = .expand) = true := by decide
theorem test_fetch_uExpand : after (step (State.reset.withFetchWord 8 2)) (fun t => t.t = 17#6) = true := by decide
theorem test_fetch_uRound : after (step (State.reset.withFetchWord 8 4)) (fun t => t.t = 1#6) = true := by decide
theorem test_fetch_uWinit : after (step (State.reset.withFetchWord 8 3)) (fun t => t.phase = .round) = true := by decide
theorem test_fetch_uPadlen : after (step (State.reset.withFetchWord 8 6)) (fun t => t.phase = .loadw) = true := by decide
theorem test_fetch_uAccum : after (step (State.reset.withFetchWord 8 5)) (fun t => t.phase = .idle) = true := by decide

/-! ### Witnesses: the hypotheses of each statement can be met, clause by clause, at the ends of their ranges -/

theorem witness_RotateRightMovesBits :
    (1 ≤ 1 ∧ 1 ≤ 31 ∧ (rotr 0x00000001#32 1).getLsbD 31 = true) ∧
    (1 ≤ 31 ∧ 31 ≤ 31 ∧ (rotr 0x80000000#32 31).getLsbD 0 = true) := by decide

theorem witness_EncodeDecodeRoundTrip :
    decodeEncoding (.command 0x20FFFFFF#32) = some (.push 0xFFFFFF#24) ∧ decodeEncoding (.command 0x40000007#32) = some (.rdw 7#3) ∧
    decodeEncoding (.phase 6#3) = some .uPadlen := by decide

theorem witness_OpcodeRowsDisjoint : ∃ r ∈ opRows, r.covers 0x20000061#32 = true ∧ r.pattern = 0x20000000#32 :=
  ⟨_, .tail _ (.head _), by decide, rfl⟩

theorem witness_IllegalWordsCharacterised :
    (∃ e, decode 0x0FFFFFFF#32 = .error e) ∧ (∃ e, decode 0x70000000#32 = .error e) ∧ (∃ e, decode 0x10000001#32 = .error e) ∧
    (∃ e, decode 0x21000000#32 = .error e) ∧ (∃ e, decode 0x40000008#32 = .error e) ∧ (∃ e, decode 0x50000040#32 = .error e) :=
  ⟨⟨_, rfl⟩, ⟨_, rfl⟩, ⟨_, rfl⟩, ⟨_, rfl⟩, ⟨_, rfl⟩, ⟨_, rfl⟩⟩

theorem witness_AssemblerLinesDecode :
    (AsmLine.push 0xFFFFFF).assemble = some [0x20FFFFFF#32] ∧ (AsmLine.push 0x1000000).assemble = none ∧
    (AsmLine.rdw 7).assemble = some [0x40000007#32] ∧ (AsmLine.rdw 8).assemble = none ∧
    (AsmLine.rdhex 63).assemble = some [0x5000003F#32] ∧ (AsmLine.rdhex 64).assemble = none ∧
    (AsmLine.word 0xFFFFFFFF).assemble = some [0xFFFFFFFF#32] ∧ (AsmLine.word 0x100000000).assemble = none := by decide

/-- An idle engine with two words waiting. -/
def waiting (w : Word) : State := { ready with cmdq := [w, 0x60000000#32] }

theorem witness_StepRunsDecodedCommand :
    (waiting 0x20000061#32).phase = .idle ∧ (waiting 0x20000061#32).cmdq = 0x20000061#32 :: [0x60000000#32] ∧
    decode 0x20000061#32 = .ok (.push 0x61#24) := by decide

/-- Each busy phase, at the ends of the T that the transition table has there. -/
theorem witness_StepRunsPhaseMicroOp :
    (let ok : State → Prop := fun s => isBusy s.phase = true ∧ (s.phase = .loadw → s.t = 0 ∨ s.t = 63) ∧
       (s.phase = .expand → 16 ≤ s.t.toNat) ∧ (s.phase = .winit ∨ s.phase = .accum ∨ s.phase = .padlen → s.t = 63)
     ok { ready with phase := .loadw, t := 0#6 } ∧ ok { ready with phase := .loadw, t := 63#6 } ∧
     ok { ready with phase := .expand, t := 16#6 } ∧ ok { ready with phase := .expand, t := 63#6 } ∧
     ok { ready with phase := .winit, t := 63#6 } ∧ ok { ready with phase := .round, t := 0#6 } ∧
     ok { ready with phase := .accum, t := 63#6 } ∧ ok { ready with phase := .padlen, t := 63#6 }) := by
  simp [isBusy]

/-- Beside each end of the T that the transition table has in a phase. -/
theorem witness_OutsideTableStops :
    (let s : State := { ready with phase := .loadw, t := 1#6 }; s.phase = .loadw ∧ s.t ≠ 0 ∧ s.t ≠ 63) ∧
    (let s : State := { ready with phase := .loadw, t := 62#6 }; s.phase = .loadw ∧ s.t ≠ 0 ∧ s.t ≠ 63) ∧
    (let s : State := { ready with phase := .expand, t := 15#6 }; s.phase = .expand ∧ s.t.toNat < 16) ∧
    (let s : State := { ready with phase := .winit, t := 62#6 }; s.phase = .winit ∧ s.t ≠ 63) ∧
    (let s : State := { ready with phase := .accum, t := 0#6 }; s.phase = .accum ∧ s.t ≠ 63) ∧
    (let s : State := { ready with phase := .padlen, t := 0#6 }; s.phase = .padlen ∧ s.t ≠ 63) := by decide

theorem witness_IllegalWordFaults :
    (waiting 0x00000000#32).phase = .idle ∧ (waiting 0x00000000#32).cmdq = 0x00000000#32 :: [0x60000000#32] ∧
    decode 0x00000000#32 = .error (.unusedOp 0#4) := by decide

/-- An engine in PH_FAULT with an INIT and an RDSTAT waiting. -/
def faulted : State := { ready with phase := .fault, err := .eSeq, cmdq := [0x10000000#32, 0x60000000#32] }

theorem witness_FaultPhaseOnlyAnswersStatus : faulted.phase = .fault ∧ faulted.cmdq ≠ [] := by decide

theorem witness_EmptyQueueWaits :
    (State.reset.cmdq = [] ∧ State.reset.phase = .idle) ∧
    ({ faulted with cmdq := [] }.cmdq = [] ∧ { faulted with cmdq := [] }.phase = .fault) := by decide

theorem witness_BusyStepHoldsCommands :
    isBusy { waiting 0x10000000#32 with phase := .loadw }.phase = true ∧
    ∃ t, step { waiting 0x10000000#32 with phase := .loadw } = .next t := ⟨rfl, _, rfl⟩

theorem witness_CommandsTakenFromHead :
    (∃ t, step (waiting 0x10000000#32) = .next t) ∧ (∃ t, step (waiting 0#32) = .next t) ∧ (∃ t, step faulted = .next t) ∧
    (∃ t, step State.reset = .next t) := ⟨⟨_, rfl⟩, ⟨_, rfl⟩, ⟨_, rfl⟩, ⟨_, rfl⟩⟩

/-- Every row of the transition table has a state it is about: PH_IDLE staying, going to PH_LOADW and to PH_FAULT, the five busy
phases below and at the ends of T, FIN 0, 1 and 2, and PH_FAULT. -/
theorem witness_PhaseTransitions :
    after (step (waiting 0x60000000#32)) (fun t => t.phase = .idle) = true ∧
    after (step { waiting 0x20000061#32 with len := 504#64 }) (fun t => t.phase = .loadw) = true ∧
    after (step (waiting 0#32)) (fun t => t.phase = .fault) = true ∧
    after (step { ready with phase := .loadw }) (fun t => t.phase = .expand) = true ∧
    after (step { ready with phase := .expand, t := 62#6 }) (fun t => t.phase = .expand && t.t = 63#6) = true ∧
    after (step { ready with phase := .expand, t := 63#6 }) (fun t => t.phase = .winit) = true ∧
    after (step { ready with phase := .winit, t := 63#6 }) (fun t => t.phase = .round) = true ∧
    after (step { ready with phase := .round, t := 0#6 }) (fun t => t.phase = .round && t.t = 1#6) = true ∧
    after (step { ready with phase := .round, t := 63#6 }) (fun t => t.phase = .accum) = true ∧
    after (step { ready with phase := .accum, t := 63#6, fin := 0#2 }) (fun t => t.phase = .idle) = true ∧
    after (step { ready with phase := .accum, t := 63#6, fin := 1#2 }) (fun t => t.phase = .padlen) = true ∧
    after (step { ready with phase := .accum, t := 63#6, fin := 2#2 }) (fun t => t.phase = .idle) = true ∧
    after (step { ready with phase := .padlen, t := 63#6, fin := 1#2 }) (fun t => t.phase = .loadw) = true ∧
    after (step faulted) (fun t => t.phase = .fault) = true := by decide

theorem witness_PushAbsorbsCharacter :
    (ready.opened = true ∧ ready.len.toNat ≠ 2 ^ 64 - 8) ∧
    ({ ready with len := 504#64 }.opened = true ∧ { ready with len := 504#64 }.len.toNat / 8 % 64 = 63) ∧
    ({ ready with len := 0xFFFFFFFFFFFFFFF0#64 }.opened = true ∧
      { ready with len := 0xFFFFFFFFFFFFFFF0#64 }.len.toNat ≠ 2 ^ 64 - 8) ∧
    State.reset.opened = false ∧
    ({ ready with len := 0xFFFFFFFFFFFFFFF8#64 }.opened = true ∧
      { ready with len := 0xFFFFFFFFFFFFFFF8#64 }.len.toNat = 2 ^ 64 - 8) := by decide

theorem witness_PushIgnoresHighBits : (0xFFFF61#24 : CodePoint).toNat % 256 = (0x000061#24 : CodePoint).toNat % 256 := by decide

theorem witness_FinalPadsBlock :
    (ready.opened = true ∧ ready.len.toNat / 8 % 64 ≤ 55) ∧
    ({ ready with len := 440#64 }.opened = true ∧ { ready with len := 440#64 }.len.toNat / 8 % 64 = 55) ∧
    ({ ready with len := 448#64 }.opened = true ∧ { ready with len := 448#64 }.len.toNat / 8 % 64 = 56) ∧
    ({ ready with len := 504#64 }.opened = true ∧ { ready with len := 504#64 }.len.toNat / 8 % 64 = 63) ∧
    State.reset.opened = false := by decide

theorem witness_RdwRespondsWord :
    ({ ready with dv := true }.dv = true ∧ ready.h[(0#3).toNat]? = some (some 0x6A09E667#32) ∧
      ready.h[(7#3).toNat]? = some (some 0x5BE0CD19#32)) ∧ State.reset.dv = false := by decide

theorem witness_RdhexRespondsCharacter :
    ({ ready with dv := true }.dv = true ∧ ready.h[(0#6).toNat / 8]? = some (some 0x6A09E667#32) ∧
      ready.h[(63#6).toNat / 8]? = some (some 0x5BE0CD19#32)) ∧ State.reset.dv = false := by decide

/-- The block of `ready`. -/
def block : Vector Byte 64 := Vector.replicate 64 0x61#8

theorem ready_blk : ∀ j : Fin 64, ready.blk[j] = some block[j] := by decide

theorem witness_LoadwSplitsBlock : ∀ j : Fin 64, { ready with phase := .loadw }.blk[j] = some block[j] := ready_blk

theorem witness_ExpandComputesScheduleWord :
    (let s : State := { ready with phase := .expand, t := 16#6 }
     16 ≤ s.t.toNat ∧ s.w[s.t.toNat - 16]? = some (some 0#32) ∧ s.w[s.t.toNat - 15]? = some (some 0#32) ∧
      s.w[s.t.toNat - 7]? = some (some 0#32) ∧ s.w[s.t.toNat - 2]? = some (some 0#32)) ∧
    (let s : State := { ready with phase := .expand, t := 63#6 }
     16 ≤ s.t.toNat ∧ s.w[s.t.toNat - 16]? = some (some 0#32) ∧ s.w[s.t.toNat - 15]? = some (some 0#32) ∧
      s.w[s.t.toNat - 7]? = some (some 0#32) ∧ s.w[s.t.toNat - 2]? = some (some 0#32)) := by decide

theorem witness_WinitCopiesState : ∀ k : Fin 8, ∃ v, { ready with phase := .winit }.h[k] = some v :=
  fun k => ⟨h0Table[k], by revert k; decide⟩

theorem witness_RoundUpdatesRegisters :
    ready.r = #v[some 0x6A09E667#32, some 0xBB67AE85#32, some 0x3C6EF372#32, some 0xA54FF53A#32, some 0x510E527F#32,
      some 0x9B05688C#32, some 0x1F83D9AB#32, some 0x5BE0CD19#32] ∧
    { ready with t := 0#6 }.w[(0#6).toNat]? = some (some 0#32) ∧ { ready with t := 63#6 }.w[(63#6).toNat]? = some (some 0#32) := by
  decide

theorem witness_AccumAddsIntoState :
    (∀ k : Fin 8, ready.h[k] = some h0Table[k]) ∧ (∀ k : Fin 8, ready.r[k] = some h0Table[k]) ∧
    { ready with fin := 0#2 }.fin ≠ 3 ∧ { ready with fin := 1#2 }.fin ≠ 3 ∧ { ready with fin := 2#2 }.fin ≠ 3 ∧
    { ready with fin := 3#2 }.fin = 3 := by decide

/-- Each row of the "written by" table has an instruction that answers a next state with that piece of state changed. -/
theorem witness_OnlyNamedWritersWrite :
    after (exec .init State.reset) (fun t => t.h ≠ State.reset.h && t.opened ≠ State.reset.opened) = true ∧
    after (exec .uWinit { ready with r := State.reset.r }) (fun t => t.r ≠ State.reset.r) = true ∧
    after (exec .uLoadw ready) (fun t => t.w ≠ ready.w && t.t ≠ ready.t) = true ∧
    after (exec (.push 0#24) ready) (fun t => t.blk ≠ ready.blk && t.len ≠ ready.len) = true ∧
    after (exec .uPadlen ready) (fun t => t.blk ≠ ready.blk && t.fin ≠ ready.fin) = true ∧
    after (exec .uAccum { ready with fin := 2#2 }) (fun t => t.dv ≠ ready.dv) = true ∧
    after (exec .final State.reset) (fun t => t.err ≠ State.reset.err && t.phase = .fault) = true ∧
    after (exec .rdstat State.reset) (fun t => t.respq ≠ []) = true := by decide

theorem witness_FaultsExactlyOnMisuse :
    State.reset.phase ≠ .fault ∧
    after (exec (.push 0x61#24) State.reset) (fun t => t.phase = .fault) = true ∧
    after (exec (.push 0x61#24) { ready with len := 0xFFFFFFFFFFFFFFF8#64 }) (fun t => t.phase = .fault) = true ∧
    after (exec .final State.reset) (fun t => t.phase = .fault) = true ∧
    after (exec (.rdw 0#3) State.reset) (fun t => t.phase = .fault) = true ∧
    after (exec (.rdhex 0#6) State.reset) (fun t => t.phase = .fault) = true ∧
    after (exec .init State.reset) (fun t => t.phase ≠ .fault) = true := by decide

theorem witness_OneResponsePerRead :
    { ready with dv := true }.phase ≠ .fault ∧
    after (exec (.rdw 7#3) { ready with dv := true }) (fun t => t.phase ≠ .fault && t.respq.length = 1) = true ∧
    after (exec (.rdhex 63#6) { ready with dv := true }) (fun t => t.phase ≠ .fault && t.respq.length = 1) = true ∧
    after (exec .rdstat ready) (fun t => t.phase ≠ .fault && t.respq.length = 1) = true ∧
    after (exec (.rdw 7#3) ready) (fun t => t.phase = .fault && t.respq.length = 0) = true := by decide

theorem witness_UnwrittenReadIsModelFault :
    (∀ j : Fin 64, State.reset.blk[j] = none) ∧ (∀ k : Fin 8, State.reset.h[k] = none) ∧
    { State.reset with dv := true }.dv = true ∧ (∀ k : Fin 8, State.reset.r[k] = none) ∧
    (let s : State := { State.reset with t := 16#6 }
     s.w[(0 : Fin 64)] = none ∧ 16 ≤ s.t.toNat ∧ (0 : Fin 64).val + 16 = s.t.toNat) ∧
    (let s : State := { State.reset with t := 63#6 }
     s.w[(61 : Fin 64)] = none ∧ 16 ≤ s.t.toNat ∧ (61 : Fin 64).val + 2 = s.t.toNat) ∧
    (let s : State := { State.reset with r := held h0Table }
     s.w[(0 : Fin 64)] = none ∧ (0 : Fin 64).val = s.t.toNat) := by decide

theorem ready_blk_held : allHeld ready.blk := by unfold allHeld; decide

/-- A state in PH_LOADW that meets the invariant, with FIN as given. -/
def loading (fin : BitVec 2) : State := { waiting 0x60000000#32 with phase := .loadw, fin := fin }

theorem loading_inv (fin : BitVec 2) (h : fin ≠ 3#2) : (loading fin).Inv where
  lenAligned := (by decide : (0#64).extractLsb' 0 3 = 0#3)
  lenBound := (by decide : 0#64 ≤ maxBits)
  flagsExclusive := by simp [loading, waiting, ready, State.reset]
  finLegal := h
  finIdle := by simp [loading]
  finPadlen := by simp [loading]
  errFault := by simp [loading, waiting, ready, State.reset]
  finFault := by simp [loading]
  busyOpen := fun _ => rfl
  heldH := fun _ => allHeld_held h0Table
  heldBlkIdle := by simp [loading]
  heldBlkBusy := fun _ => ready_blk_held
  expandIndex := by simp [loading]
  restIndex := fun _ => .inl rfl
  lastIndex := by simp [loading]
  heldWExpand := by simp [loading]
  heldW := by simp [loading]
  heldR := by simp [loading]

theorem waiting_inv (w : Word) : (waiting w).Inv where
  lenAligned := (by decide : (0#64).extractLsb' 0 3 = 0#3)
  lenBound := (by decide : 0#64 ≤ maxBits)
  flagsExclusive := by simp [waiting, ready, State.reset]
  finLegal := (by decide : 0#2 ≠ 3#2)
  finIdle := fun _ => rfl
  finPadlen := by simp [waiting, ready, State.reset]
  errFault := by simp [waiting, ready, State.reset]
  finFault := fun _ => rfl
  busyOpen := by simp [waiting, ready, State.reset, isBusy]
  heldH := fun _ => allHeld_held h0Table
  heldBlkIdle := fun _ _ => heldBelow_of_allHeld ready_blk_held _
  heldBlkBusy := by simp [waiting, ready, State.reset, isBusy]
  expandIndex := by simp [waiting, ready, State.reset]
  restIndex := fun _ => .inl rfl
  lastIndex := by simp [waiting, ready, State.reset]
  heldWExpand := by simp [waiting, ready, State.reset]
  heldW := by simp [waiting, ready, State.reset]
  heldR := by simp [waiting, ready, State.reset]

theorem witness_StepKeepsInvariant :
    ((loading 2#2).Inv ∧ ∃ t, Sys2Proof.core.step (loading 2#2) = .next t) ∧
    ((waiting 0x20000061#32).Inv ∧ ∃ t, Sys2Proof.core.step (waiting 0x20000061#32) = .next t) :=
  ⟨⟨loading_inv _ (by decide), _, rfl⟩, waiting_inv _, _, rfl⟩

theorem witness_NoStepFaultsUnderInvariant : (loading 1#2).Inv ∧ (waiting 0x30000000#32).Inv :=
  ⟨loading_inv _ (by decide), waiting_inv _⟩

theorem witness_AnyInterleavingIsSafe : (waiting 0x30000000#32).Inv := waiting_inv _

/-- `ready` with the unwritten cells of W as reset leaves them: `ready` holds further values. -/
theorem witness_UnwrittenCellsUnobservable :
    State.Refines { waiting 0x60000000#32 with w := State.reset.w } (waiting 0x60000000#32) ∧
    ∃ t, Sys2Proof.core.run 2 { waiting 0x60000000#32 with w := State.reset.w } = .next t :=
  ⟨{ h := fun _ _ => rfl
     r := fun _ _ => rfl
     w := by unfold cellsAgree; decide
     blk := fun _ _ => rfl
     len := rfl
     phase := rfl
     t := rfl
     fin := rfl
     opened := rfl
     dv := rfl
     err := rfl
     cmdq := rfl
     respq := rfl }, _, rfl⟩

theorem witness_InstancesShareNothing :
    ∃ chip', Chip.eventAt [State.reset, waiting 0x60000000#32] 1 .engine = .next chip' := ⟨_, rfl⟩

theorem witness_ScheduleRecurrence : (15 : Fin 64).val < 16 ∧ 16 ≤ (16 : Fin 64).val ∧ 16 ≤ (63 : Fin 64).val := by decide

theorem witness_ScheduleComputedIn49Steps :
    (loading 0#2).phase = .loadw ∧ ((loading 0#2).t = 0 ∨ (loading 0#2).t = 63) ∧
    ∀ j : Fin 64, (loading 0#2).blk[j] = some block[j] := ⟨rfl, .inl rfl, ready_blk⟩

theorem witness_RoundsComputedIn65Steps :
    (let s : State := { ready with phase := .winit, t := 63#6 }
     s.phase = .winit ∧ s.t = 63 ∧ (∀ k : Fin 8, s.h[k] = some h0Table[k]) ∧
      ∀ i : Fin 64, s.w[i] = some (Vector.replicate 64 0#32)[i]) := by decide

theorem witness_BlockCompressedIn115Steps :
    (loading 1#2).phase = .loadw ∧ ((loading 1#2).t = 0 ∨ (loading 1#2).t = 63) ∧ (loading 1#2).fin ≠ 3 ∧
    (∀ k : Fin 8, (loading 1#2).h[k] = some h0Table[k]) ∧
    ∀ j : Fin 64, (loading 1#2).blk[j] = some block[j] := ⟨rfl, .inl rfl, by decide, by decide, ready_blk⟩

theorem witness_BusyEpisodeEnds :
    ((loading 0#2).Inv ∧ (loading 0#2).phase = .loadw ∧ (loading 0#2).fin ≠ 1) ∧
    ((loading 1#2).Inv ∧ (loading 1#2).phase = .loadw ∧ (loading 1#2).fin = 1) ∧
    ((loading 2#2).Inv ∧ (loading 2#2).phase = .loadw ∧ (loading 2#2).fin ≠ 1) :=
  ⟨⟨loading_inv _ (by decide), rfl, by decide⟩, ⟨loading_inv _ (by decide), rfl, rfl⟩, loading_inv _ (by decide), rfl, by decide⟩

/-- In PH_IDLE with a command waiting, in a busy phase and in PH_FAULT, each with a response to remove. -/
theorem witness_HostActionsCommuteWithSteps :
    (let s : State := { waiting 0x60000000#32 with respq := [0#32] }
     s.stepEnabled = true ∧ (∃ t, step s = .next t) ∧ s.respq ≠ []) ∧
    (let s : State := { ready with phase := .loadw, respq := [0#32] }
     s.stepEnabled = true ∧ (∃ t, step s = .next t) ∧ s.respq ≠ []) ∧
    (let s : State := { faulted with respq := [0#32] }
     s.stepEnabled = true ∧ (∃ t, step s = .next t) ∧ s.respq ≠ []) :=
  ⟨⟨rfl, ⟨_, rfl⟩, by decide⟩, ⟨rfl, ⟨_, rfl⟩, by decide⟩, rfl, ⟨_, rfl⟩, by decide⟩

/-- The 64th character of a block. -/
theorem witness_PushCompletesBlock :
    (let s : State := { ready with len := 504#64 }
     s.phase = .idle ∧ (s.t = 0 ∨ s.t = 63) ∧ s.fin = 0 ∧ s.opened = true ∧ s.len.toNat ≠ 2 ^ 64 - 8 ∧ s.len.toNat / 8 % 64 = 63 ∧
      (∀ k : Fin 8, s.h[k] = some h0Table[k]) ∧ (∀ j : Fin 64, j.val < 63 → s.blk[j] = some block[j]) ∧
      block[63] = BitVec.ofNat 8 (0x000061#24 : CodePoint).toNat) := by decide

/-- The last message bytes of `ready`, the marker at `fill = n`, and the length or zeros: the block FINAL builds. -/
def lastBlock (n : Nat) (len : BitVec 64) : Vector Byte 64 := Vector.ofFn fun j =>
  if j.val < n then 0x61#8
  else if j.val = n then 0x80#8
  else if n ≤ 55 ∧ 56 ≤ j.val then BitVec.ofNat 8 (len.toNat / 2 ^ (8 * (63 - j.val)))
  else 0x00#8

/-- The block U_PADLEN builds. -/
def lengthBlock (len : BitVec 64) : Vector Byte 64 := Vector.ofFn fun j =>
  if j.val < 56 then 0x00#8 else BitVec.ofNat 8 (len.toNat / 2 ^ (8 * (63 - j.val)))

theorem witness_FinalCompletesDigest_one_block :
    (let s : State := { ready with len := 440#64 }
     s.phase = .idle ∧ (s.t = 0 ∨ s.t = 63) ∧ s.opened = true ∧ (∀ k : Fin 8, s.h[k] = some h0Table[k]) ∧
      (∀ j : Fin 64, j.val < s.len.toNat / 8 % 64 → s.blk[j] = some (lastBlock 55 440#64)[j]) ∧
      (∀ j : Fin 64, s.len.toNat / 8 % 64 ≤ j.val → (lastBlock 55 440#64)[j] =
        if j.val = s.len.toNat / 8 % 64 then 0x80
        else if s.len.toNat / 8 % 64 ≤ 55 ∧ 56 ≤ j.val then BitVec.ofNat 8 (s.len.toNat / 2 ^ (8 * (63 - j.val)))
        else 0x00) ∧
      (∀ j : Fin 64, (lengthBlock 440#64)[j] =
        if j.val < 56 then 0x00 else BitVec.ofNat 8 (s.len.toNat / 2 ^ (8 * (63 - j.val)))) ∧
      s.len.toNat / 8 % 64 ≤ 55) := by decide

theorem witness_FinalCompletesDigest_two_blocks :
    (let s : State := { ready with len := 448#64 }
     s.phase = .idle ∧ (s.t = 0 ∨ s.t = 63) ∧ s.opened = true ∧ (∀ k : Fin 8, s.h[k] = some h0Table[k]) ∧
      (∀ j : Fin 64, j.val < s.len.toNat / 8 % 64 → s.blk[j] = some (lastBlock 56 448#64)[j]) ∧
      (∀ j : Fin 64, s.len.toNat / 8 % 64 ≤ j.val → (lastBlock 56 448#64)[j] =
        if j.val = s.len.toNat / 8 % 64 then 0x80
        else if s.len.toNat / 8 % 64 ≤ 55 ∧ 56 ≤ j.val then BitVec.ofNat 8 (s.len.toNat / 2 ^ (8 * (63 - j.val)))
        else 0x00) ∧
      (∀ j : Fin 64, (lengthBlock 448#64)[j] =
        if j.val < 56 then 0x00 else BitVec.ofNat 8 (s.len.toNat / 2 ^ (8 * (63 - j.val)))) ∧
      56 ≤ s.len.toNat / 8 % 64) := by decide

theorem witness_EveryRunEnds : (loading 1#2).Inv ∧ (loading 1#2).cmdq ≠ [] ∧ State.reset.Inv := by
  refine ⟨loading_inv _ (by decide), by decide, ?_⟩
  constructor <;> (simp [State.reset, isBusy]; try decide)

/-- Two interleavings of the run of two RDSTATs from reset, with a response removed in one of them; both end, with the outcome
that 45_engine.md R142 gives: two words 0. -/
theorem witness_RunOutcomeUnique :
    (∃ r, (Run.start State.reset [0x60000000#32, 0x60000000#32]).follow [.append, .engine, .takeResponse, .append, .engine] =
        .next r ∧ r.ended = true ∧ r.outcome = ([0#32, 0#32], false, false, false) ∧ r.engine.respq = [0#32]) ∧
    (∃ r, (Run.start State.reset [0x60000000#32, 0x60000000#32]).follow [.append, .append, .engine, .engine] =
        .next r ∧ r.ended = true ∧ r.outcome = ([0#32, 0#32], false, false, false)) :=
  ⟨⟨_, rfl, rfl, rfl, rfl⟩, _, rfl, rfl, rfl⟩

/-- The start state's own responses are no part of a run's outcome, and a run ends at the first state that is an end: the
events after it are not followed. -/
theorem test_run_outcome :
    (∃ r, (Run.start { State.reset with respq := [7#32] } [0x60000000#32]).follow [.engine, .append, .engine, .takeResponse] =
        .next r ∧ r.outcome = ([0#32], false, false, false) ∧ r.engine.respq = [7#32, 0#32]) := ⟨_, rfl, rfl, rfl⟩

/-- 95_test_vectors.md X10: the run of an illegal word ends faulted. -/
theorem test_run_faulted :
    (∃ r, (Run.start State.reset [0x21000061#32, 0x60000000#32]).follow [.append, .append, .engine, .engine] = .next r ∧
        r.faulted = true ∧ r.endedWell = false ∧ r.outcome = ([0x74#32], false, false, true)) := ⟨_, rfl, rfl, rfl, rfl⟩

theorem witness_PaddingBytesAreTheBits : 8 * ([0x61#8, 0x62#8, 0x63#8] : List Byte).length < 2 ^ 64 := by decide

/-- The words of the one-character message `a`, then RDSTAT. -/
theorem witness_MessageIsDigested :
    (let s : State := { State.reset with cmdq := [0x10000000#32, 0x20000061#32, 0x30000000#32, 0x60000000#32] }
     let cs : List CodePoint := [0x000061#24]
     s.phase = .idle ∧ (s.t = 0 ∨ s.t = 63) ∧ s.err = .noFault ∧ cs.length ≤ 2 ^ 61 - 1 ∧
      s.cmdq = 0x10000000#32 :: cs.map (fun c => 0x20000000#32 + c.setWidth 32) ++ 0x30000000#32 :: [0x60000000#32]) ∧
    (let s : State := { State.reset with cmdq := [0x10000000#32, 0x30000000#32] }
     s.cmdq = 0x10000000#32 :: ([] : List CodePoint).map (fun c => 0x20000000#32 + c.setWidth 32) ++ 0x30000000#32 :: []) := by
  decide

theorem witness_ComputeAnswersDigestString :
    ∃ ws, (AsmLine.compute [0x61, 0x20AC, 0xFFFFFF]).assemble = some ws ∧
      State.reset.phase = .idle ∧ (State.reset.t = 0 ∨ State.reset.t = 63) ∧ State.reset.err = .noFault ∧ State.reset.cmdq = [] ∧
      [0x61, 0x20AC, 0xFFFFFF].length ≤ 2 ^ 61 - 1 := ⟨_, rfl, rfl, .inl rfl, rfl, rfl, by decide⟩

end Sys2Proof.Tests
end

section
/-! The reset state item by item (10_state.md R27), its views (R20, R26), and the statement about the reset event (O38). -/

namespace Sys2Proof.Machine

@[simp] theorem apply_reset (s : State) : HostEvent.reset.apply s = .next State.reset := rfl

@[simp] theorem core_reset_eq : core.reset = State.reset := rfl

/-! ### Control state and streams -/

@[simp] theorem reset_len : State.reset.len = 0#64 := rfl
@[simp] theorem reset_phase : State.reset.phase = .idle := rfl
@[simp] theorem reset_t : State.reset.t = 0#6 := rfl
@[simp] theorem reset_fin : State.reset.fin = 0#2 := rfl
@[simp] theorem reset_opened : State.reset.opened = false := rfl
@[simp] theorem reset_dv : State.reset.dv = false := rfl
@[simp] theorem reset_err : State.reset.err = .noFault := rfl
@[simp] theorem reset_cmdq : State.reset.cmdq = [] := rfl
@[simp] theorem reset_respq : State.reset.respq = [] := rfl

/-! ### Register files -/

section cells
variable (i : Nat)

@[simp] theorem reset_h_getElem (hi : i < 8) : State.reset.h[i] = none := Vector.getElem_replicate hi
@[simp] theorem reset_r_getElem (hi : i < 8) : State.reset.r[i] = none := Vector.getElem_replicate hi
@[simp] theorem reset_w_getElem (hi : i < 64) : State.reset.w[i] = none := Vector.getElem_replicate hi
@[simp] theorem reset_blk_getElem (hi : i < 64) : State.reset.blk[i] = none := Vector.getElem_replicate hi

end cells

/-! ### Views -/

@[simp] theorem reset_busyLine : State.reset.busyLine = false := rfl
@[simp] theorem reset_dvLine : State.reset.dvLine = false := rfl
@[simp] theorem reset_errLine : State.reset.errLine = false := rfl

/-- Every field of STATUS is 0: the fields by `status_toNat`, each at its reset value. -/
@[simp] theorem reset_status : State.reset.status = 0#32 := by
  apply BitVec.eq_of_toNat_eq
  simp [status_toNat, fill_toNat, errBits, phaseCode]

end Sys2Proof.Machine

namespace Sys2Proof.Proofs

open Sys2Proof.Machine

/-- Settles O38: the event's result is `State.reset` whatever the state before it, and each item is then read off the lemmas
about that state. -/
theorem resetValues : Obligations.ResetValues := by
  intro s
  refine ⟨State.reset, apply_reset s, core_reset_eq.symm, reset_phase, reset_t, reset_fin, reset_opened, reset_dv, reset_err,
    reset_len, reset_cmdq, reset_respq, ?h, ?r, ?w, ?blk, reset_busyLine, reset_dvLine, reset_errLine, reset_status⟩
  case h => exact fun k => reset_h_getElem k k.isLt
  case r => exact fun k => reset_r_getElem k k.isLt
  case w => exact fun j => reset_w_getElem j j.isLt
  case blk => exact fun j => reset_blk_getElem j j.isLt

end Sys2Proof.Proofs
end

section
/-! The encoder's words through the decoder's arithmetic (30_encoding.md R50 to R58), and the statement that decoding an
instruction's encoding gives it back (O7). -/

namespace Sys2Proof

/-! ### The command rows with an operand: a word `op ++ x` lies in its row, and the row's field reads `x` back -/

/-- The bits above the operand's field are the fixed ones: what `decode_cases` compares. -/
theorem append_toNat_div {n k : Nat} (op : BitVec n) (x : BitVec k) : (op ++ x).toNat / 2 ^ k = op.toNat := by
  rw [BitVec.toNat_append, ← Nat.shiftRight_eq_div_pow, Nat.shiftRight_or_distrib, Nat.shiftLeft_shiftRight,
    Nat.shiftRight_eq_div_pow, Nat.div_eq_of_lt x.isLt, Nat.or_zero]

@[simp] theorem cpField_append (op : BitVec 8) (cp : CodePoint) : cpField (op ++ cp) = cp := BitVec.extractLsb'_append_eq_right

@[simp] theorem kField_append (op : BitVec 29) (k : BitVec 3) : kField (op ++ k) = k := BitVec.extractLsb'_append_eq_right

@[simp] theorem iField_append (op : BitVec 26) (i : BitVec 6) : iField (op ++ i) = i := BitVec.extractLsb'_append_eq_right

theorem decode_push_row {w : Word} (h : w.toNat / 2 ^ 24 = 0x20) : decode w = .ok (.push (cpField w)) := by
  rw [decode_cases, if_neg (by omega), if_pos h]

theorem decode_rdw_row {w : Word} (h : w.toNat / 2 ^ 3 = 0x08000000) : decode w = .ok (.rdw (kField w)) := by
  rw [decode_cases, if_neg (by omega), if_neg (by omega), if_neg (by omega), if_pos h]

theorem decode_rdhex_row {w : Word} (h : w.toNat / 2 ^ 6 = 0x1400000) : decode w = .ok (.rdhex (iField w)) := by
  rw [decode_cases, if_neg (by omega), if_neg (by omega), if_neg (by omega), if_neg (by omega), if_pos h]

/-! ### The word of each command -/

@[simp] theorem decode_init_word : decode 0x10000000#32 = .ok .init := by decide

@[simp] theorem decode_push_word (cp : CodePoint) : decode (0x20#8 ++ cp) = .ok (.push cp) := by
  rw [decode_push_row (append_toNat_div _ cp), cpField_append]

@[simp] theorem decode_final_word : decode 0x30000000#32 = .ok .final := by decide

@[simp] theorem decode_rdw_word (k : BitVec 3) : decode (0x08000000#29 ++ k) = .ok (.rdw k) := by
  rw [decode_rdw_row (append_toNat_div _ k), kField_append]

@[simp] theorem decode_rdhex_word (i : BitVec 6) : decode (0x1400000#26 ++ i) = .ok (.rdhex i) := by
  rw [decode_rdhex_row (append_toNat_div _ i), iField_append]

@[simp] theorem decode_rdstat_word : decode 0x60000000#32 = .ok .rdstat := by decide

/-! ### Both decoders -/

@[simp] theorem phaseOfCode_phaseCode (p : Phase) : phaseOfCode (phaseCode p) = p := by cases p <;> rfl

theorem decodeEncoding_command {w : Word} {i : Instr} (h : decode w = .ok i) : decodeEncoding (.command w) = some i :=
  congrArg Except.toOption h

theorem decodeEncoding_phaseCode (p : Phase) : decodeEncoding (.phase (phaseCode p)) = uopOf p :=
  congrArg uopOf (phaseOfCode_phaseCode p)

end Sys2Proof

namespace Sys2Proof.Proofs

/-- Settles O7: a command by the row of the opcode map that its word lies in, a micro-operation by the phase whose code selects
it. -/
theorem decodeEncodeRoundTrip : Obligations.DecodeEncodeRoundTrip := by
  intro i
  cases i with
  | init => exact decodeEncoding_command decode_init_word
  | push cp => exact decodeEncoding_command (decode_push_word cp)
  | final => exact decodeEncoding_command decode_final_word
  | rdw k => exact decodeEncoding_command (decode_rdw_word k)
  | rdhex i => exact decodeEncoding_command (decode_rdhex_word i)
  | rdstat => exact decodeEncoding_command decode_rdstat_word
  | uLoadw => exact decodeEncoding_phaseCode .loadw
  | uExpand => exact decodeEncoding_phaseCode .expand
  | uWinit => exact decodeEncoding_phaseCode .winit
  | uRound => exact decodeEncoding_phaseCode .round
  | uAccum => exact decodeEncoding_phaseCode .accum
  | uPadlen => exact decodeEncoding_phaseCode .padlen

end Sys2Proof.Proofs
end

section
/-! The word functions bit by bit and as numbers (40_word_functions.md R72 to R74, R79 to R82), and the statements about the
shift and the complement (O2) and the bits of the four sigma functions (O5). -/

namespace Sys2Proof.Machine

/-- R72's `rotr` is the library's rotation for the amounts the spec gives it a meaning for. -/
theorem rotr_eq_rotateRight (x : Word) {n : Nat} (hn : n < 32) : rotr x n = x.rotateRight n := by
  rw [rotr, BitVec.rotateRight_def, Nat.mod_eq_of_lt hn]

/-- R72: bit `j + n` of the word comes to bit `j`, cyclically. -/
theorem rotr_getLsbD (x : Word) {n j : Nat} (hn : n < 32) (hj : j < 32) :
    (rotr x n).getLsbD j = x.getLsbD ((j + n) % 32) := by
  rw [rotr_eq_rotateRight x hn, BitVec.getLsbD_rotateRight_of_lt hn]
  by_cases hwrap : j < 32 - n
  · have hbit : (j + n) % 32 = n + j := by omega
    simp [hwrap, hbit]
  · have hbit : (j + n) % 32 = j - (32 - n) := by omega
    simp [hwrap, hbit, hj]

@[simp] theorem shr_getLsbD (x : Word) (n j : Nat) : (shr x n).getLsbD j = x.getLsbD (j + n) := by
  rw [shr, BitVec.getLsbD_ushiftRight, Nat.add_comm]

theorem shr_toNat (x : Word) (n : Nat) : (shr x n).toNat = x.toNat / 2 ^ n := by
  rw [shr, BitVec.toNat_ushiftRight, Nat.shiftRight_eq_div_pow]

/-- A word has no bit above bit 31. -/
theorem word_getLsbD_eq_and (x : Word) (i : Nat) : x.getLsbD i = (decide (i ≤ 31) && x.getLsbD i) := by
  by_cases hi : i ≤ 31
  · simp [hi]
  · simp [hi, BitVec.getLsbD_of_ge x i (by omega)]

theorem not32_toNat (x : Word) : (not32 x).toNat = 0xFFFFFFFF - x.toNat := by
  rw [not32, BitVec.toNat_not]

theorem not32_eq_xor (x : Word) : not32 x = x ^^^ 0xFFFFFFFF#32 := BitVec.xor_allOnes.symm

end Sys2Proof.Machine

namespace Sys2Proof.Proofs

open Sys2Proof.Machine

/-- Settles O5: the exclusive or is bitwise, and `rotr_getLsbD` and `shr_getLsbD` say which bit each rotation and shift brings. -/
theorem sigmaFunctionBits : Obligations.SigmaFunctionBits := by
  intro x j hj
  have rot {n : Nat} (hn : n < 32) := rotr_getLsbD x hn hj
  refine ⟨?sum0, ?sum1, ?sigma0, ?sigma1⟩
  case sum0 => simp [sum0, rot]
  case sum1 => simp [sum1, rot]
  case sigma0 => simp [sigma0, rot]
  case sigma1 => simp [sigma1, rot]

/-- Settles O2: the shift and the complement as numbers and bit by bit; no bit above 31 comes in. -/
theorem shiftAndComplementValues : Obligations.ShiftAndComplementValues := fun x n =>
  ⟨shr_toNat x n, fun j => (shr_getLsbD x n j).trans (word_getLsbD_eq_and x (j + n)), not32_toNat x, not32_eq_xor x⟩

end Sys2Proof.Proofs
end

section
/-! What PUSH, FINAL and U_PADLEN leave in each cell of BLK (41_preprocessor.md R91, R92, R95), and the statements about the three
(O22, O24, O33). -/

namespace Sys2Proof.Machine

/-- R95 cell by cell, the length as a number. -/
theorem padlenBlock_getElem (len : BitVec 64) (j : Fin 64) :
    (padlenBlock len)[j] =
      if j.val < 56 then some 0x00#8 else some (BitVec.ofNat 8 (len.toNat / 2 ^ (8 * (63 - j.val)))) := by
  simp only [padlenBlock, Fin.getElem_fin, Vector.getElem_ofFn]
  split_ifs with hzero
  · rfl
  · rw [lenByte_eq len j (by omega) j.isLt]

/-- R92 when the length fits: the block ends as U_PADLEN's does. -/
theorem finalBlock_getElem_of_le (blk : Vector (Option Byte) 64) {fill : BitVec 6} (len : BitVec 64)
    (hfits : fill.toNat ≤ 55) (j : Fin 64) :
    (finalBlock blk fill len)[j] =
      if j.val < fill.toNat then blk[j]
      else if j.val = fill.toNat then some 0x80#8
      else (padlenBlock len)[j] := by
  have htail : (if 56 ≤ j.val then some (lenByte len (j.val - 56)) else some 0x00#8) = (padlenBlock len)[j] := by
    simp only [padlenBlock, Fin.getElem_fin, Vector.getElem_ofFn, ← Nat.not_lt, ite_not]
  simp only [finalBlock_getElem, hfits, true_and, htail]

/-- R92 when the length does not fit: zeros to the end of the block. -/
theorem finalBlock_getElem_of_gt (blk : Vector (Option Byte) 64) {fill : BitVec 6} (len : BitVec 64)
    (hover : 56 ≤ fill.toNat) (j : Fin 64) :
    (finalBlock blk fill len)[j] =
      if j.val < fill.toNat then blk[j]
      else if j.val = fill.toNat then some 0x80#8
      else some 0x00#8 := by
  have hno : ¬ (fill.toNat ≤ 55 ∧ 56 ≤ j.val) := by omega
  simp only [finalBlock_getElem, if_neg hno]

/-- R91: the code unit goes to cell `fill` and only there. -/
theorem blk_set_fill_getElem (s : State) (b : Option Byte) (j : Fin 64) :
    (s.blk.set s.fill.toNat b s.fill.isLt)[j] = if j.val = s.len.toNat / 8 % 64 then b else s.blk[j] := by
  simp only [Fin.getElem_fin, Vector.getElem_set, fill_toNat, eq_comm]

theorem exec_final_fits {s : State} (hopen : s.opened = true) (hfits : s.fill.toNat ≤ 55) :
    exec .final s = .next { s with blk := finalBlock s.blk s.fill s.len, fin := 2#2, phase := .loadw } := by
  have hle : s.fill ≤ 55#6 := hfits
  rw [exec_final_open hopen, if_pos hle]

theorem exec_final_overflows {s : State} (hopen : s.opened = true) (hover : 56 ≤ s.fill.toNat) :
    exec .final s = .next { s with blk := finalBlock s.blk s.fill s.len, fin := 1#2, phase := .loadw } := by
  have hgt : ¬ s.fill ≤ 55#6 := Nat.not_le.2 hover
  rw [exec_final_open hopen, if_neg hgt]

end Sys2Proof.Machine

namespace Sys2Proof.Proofs

open Sys2Proof.Machine

/-- Settles O22: `exec_push_open` away from the length limit, and the fault of each of the other two cases. -/
theorem pushAbsorbsCharacter : Obligations.PushAbsorbsCharacter := by
  intro cp s
  refine ⟨fun hopen hroom => ?absorb, fun hclosed => exec_push_closed cp hclosed, fun hopen hfull => ?full⟩
  case absorb =>
    have hlen : s.len ≠ maxBits := fun h => hroom ((eq_maxBits_iff s.len).1 h)
    refine ⟨_, exec_push_open cp hopen hlen, fun j => ?cell, BitVec.toNat_add _ _, ?phase, rfl⟩
    case cell => rw [← codeUnit_eq, blk_set_fill_getElem]
    case phase => simp only [eq_63_iff, fill_toNat]
  case full => exact exec_push_full cp hopen ((eq_maxBits_iff s.len).2 hfull)

/-- Settles O24: FIN and the cells after the marker by whether the length fits at `fill`. -/
theorem finalPadsBlock : Obligations.FinalPadsBlock := by
  intro s
  rw [← fill_toNat]
  refine ⟨fun hopen hfits => ⟨_, exec_final_fits hopen hfits, fun j => ?fits, rfl⟩,
    fun hopen hover => ⟨_, exec_final_overflows hopen hover, finalBlock_getElem_of_gt s.blk s.len hover, rfl⟩,
    exec_final_closed⟩
  case fits => rw [finalBlock_getElem_of_le s.blk s.len hfits, padlenBlock_getElem]; rfl

/-- Settles O33: `exec_uPadlen`, and the block's cells by `padlenBlock_getElem`. -/
theorem padlenBuildsLengthBlock : Obligations.PadlenBuildsLengthBlock := fun s =>
  ⟨_, exec_uPadlen, padlenBlock_getElem s.len, rfl⟩

end Sys2Proof.Proofs
end

section
/-! What U_LOADW and U_EXPAND leave in each cell of W (42_scheduler.md R110, R111), and the statements about the two
micro-operations (O28, O29). -/

namespace Sys2Proof.Machine

/-! ### U_LOADW -/

/-- R110: the first 16 words of the schedule are the block's, big-endian. -/
theorem loadedSchedule_getElem_of_lt (w : Vector (Option Word) 64) (b : Vector Byte 64) (j : Fin 16) :
    (loadedSchedule w b)[j.val] =
      some (b[4 * j.val] ++ b[4 * j.val + 1] ++ b[4 * j.val + 2] ++ b[4 * j.val + 3]) := by
  rw [loadedSchedule, Vector.getElem_ofFn, dif_pos j.isLt, blockWord, wordOfBytes]

/-- R110: `W[16..63]` is kept. -/
theorem loadedSchedule_getElem_of_ge (w : Vector (Option Word) 64) (b : Vector Byte 64) (j : Fin 64) (hj : 16 ≤ j.val) :
    (loadedSchedule w b)[j] = w[j] := by
  rw [Fin.getElem_fin, loadedSchedule, Vector.getElem_ofFn, dif_neg (Nat.not_lt.2 hj)]

/-! ### U_EXPAND -/

/-- R111's sum of four terms, as written there. -/
theorem expandWord_eq_sum (w16 w15 w7 w2 : Word) : expandWord w16 w15 w7 w2 = w16 + sigma0 w15 + w7 + sigma1 w2 := rfl

/-- R111: the word goes to `W[T]` and only there. -/
theorem w_set_t_getElem (s : State) (v : Option Word) (j : Fin 64) :
    (s.w.set s.t.toNat v s.t.isLt)[j] = if j.val = s.t.toNat then v else s.w[j] := by
  simp only [Fin.getElem_fin, Vector.getElem_set, eq_comm]

/-- Below 63, counting T up does not wrap. -/
theorem t_add_one_toNat {t : BitVec 6} (hlast : t.toNat ≠ 63) : (t + 1#6).toNat = t.toNat + 1 :=
  BitVec.toNat_add_of_lt (by have := t.isLt; simp; omega)

/-- What U_EXPAND answers once its four sources hold values. -/
theorem exec_uExpand_held {s : State} {w16 w15 w7 w2 : Word} (hT : 16 ≤ s.t.toNat)
    (h16 : s.w[s.t.toNat - 16]? = some (some w16)) (h15 : s.w[s.t.toNat - 15]? = some (some w15))
    (h7 : s.w[s.t.toNat - 7]? = some (some w7)) (h2 : s.w[s.t.toNat - 2]? = some (some w2)) :
    exec .uExpand s = .next { s with
      w := s.w.set s.t.toNat (some (expandWord w16 w15 w7 w2)) s.t.isLt
      t := if s.t = 63#6 then s.t else s.t + 1#6
      phase := if s.t = 63#6 then .winit else s.phase } := by
  obtain ⟨_, h16⟩ := Vector.getElem?_eq_some_iff.1 h16
  obtain ⟨_, h15⟩ := Vector.getElem?_eq_some_iff.1 h15
  obtain ⟨_, h7⟩ := Vector.getElem?_eq_some_iff.1 h7
  obtain ⟨_, h2⟩ := Vector.getElem?_eq_some_iff.1 h2
  exact exec_uExpand.2 ⟨hT, w16, w15, w7, w2, h16, h15, h7, h2, rfl⟩

end Sys2Proof.Machine

namespace Sys2Proof.Proofs

open Sys2Proof.Machine

/-- Settles O28: `exec_uLoadw_held`, and the cells of W by `loadedSchedule`'s two clauses. -/
theorem loadwSplitsBlock : Obligations.LoadwSplitsBlock := fun s b hblk =>
  ⟨_, exec_uLoadw_held (held_of_cells hblk), loadedSchedule_getElem_of_lt s.w b, loadedSchedule_getElem_of_ge s.w b, rfl⟩

/-- Settles O29: `exec_uExpand_held`; T and PHASE by whether `W[T]` is the schedule's last word. -/
theorem expandComputesScheduleWord : Obligations.ExpandComputesScheduleWord := by
  intro s w16 w15 w7 w2 hT h16 h15 h7 h2
  refine ⟨_, exec_uExpand_held hT h16 h15 h7 h2, fun j => ?cell, ?control⟩
  case cell => rw [w_set_t_getElem, expandWord_eq_sum]
  case control =>
    simp only [eq_63_iff]
    split_ifs with hlast
    · rfl
    · exact ⟨t_add_one_toNat hlast, rfl⟩

end Sys2Proof.Proofs
end

section
/-! What U_WINIT and U_ROUND leave in R and in the control state (43_round.md R121, R122), and the statements about the two
micro-operations (O30, O31). -/

namespace Sys2Proof.Machine

theorem allHeld_of_cells {α : Type} {n : Nat} {v : Vector (Option α) n} (h : ∀ i : Fin n, ∃ x, v[i] = some x) : allHeld v :=
  fun i => Option.isSome_iff_exists.2 (h i)

/-! ### The round's registers `a..h`, by name -/

section registers
variable (a b c d e f g h k w : Word)

theorem held_registers : held #v[a, b, c, d, e, f, g, h] =
    #v[some a, some b, some c, some d, some e, some f, some g, some h] := rfl

theorem temp1_registers : temp1 #v[a, b, c, d, e, f, g, h] k w = h + sum1 e + ch e f g + k + w := rfl

theorem temp2_registers : temp2 #v[a, b, c, d, e, f, g, h] = sum0 a + maj a b c := rfl

/-- R122's eight assignments, all from the old values. -/
theorem roundUpdate_registers : roundUpdate #v[a, b, c, d, e, f, g, h] k w =
    #v[h + sum1 e + ch e f g + k + w + (sum0 a + maj a b c), a, b, c, d + (h + sum1 e + ch e f g + k + w), e, f, g] := by
  rw [← temp1_registers a b c d, ← temp2_registers a b c d e f g h]
  rfl

end registers

/-- The constant of round `T` is the table's entry `T` (20_memory.md R34). -/
theorem kTable_getElem? (t : BitVec 6) : kTable[t.toNat]? = some (roundConstant t) := Vector.getElem?_eq_getElem t.isLt

end Sys2Proof.Machine

namespace Sys2Proof.Proofs

open Sys2Proof.Machine

/-- Settles O30: an H without an empty cell is `held`, and `exec_uWinit_held` copies it. -/
theorem winitCopiesState : Obligations.WinitCopiesState := by
  intro s hcells
  obtain ⟨h, hh⟩ := held_of_allHeld (allHeld_of_cells hcells)
  exact ⟨_, exec_uWinit_held hh, fun k => by rw [hh], rfl⟩

/-- Settles O31: `exec_uRound_held`, and the eight registers by `roundUpdate_registers`; T and PHASE by whether the round is the
last one. -/
theorem roundUpdatesRegisters : Obligations.RoundUpdatesRegisters := by
  intro s a b c d e f g h w hr hw
  obtain ⟨_, hw⟩ := Vector.getElem?_eq_some_iff.1 hw
  rw [← held_registers] at hr
  refine ⟨_, _, exec_uRound_held hr hw, kTable_getElem? s.t, ?registers, ?control⟩
  case registers => rw [roundUpdate_registers, held_registers]
  case control =>
    simp only [eq_63_iff]
    split_ifs with hlast
    · rfl
    · exact ⟨t_add_one_toNat hlast, rfl⟩

end Sys2Proof.Proofs
end

section
/-! What RDW and RDHEX append to RESPQ, and what U_ACCUM leaves in H and in the control state (44_accumulator.md R131, R135,
R136), and the statements about the three (O25, O26, O32). -/

namespace Sys2Proof.Machine

/-! ### The read-out commands -/

/-- R135: RDW once `H[k]` holds a value. -/
theorem exec_rdw_held {s : State} {k : BitVec 3} {v : Word} (hdv : s.dv = true) (hcell : s.h[k.toNat]? = some (some v)) :
    exec (.rdw k) s = .next (s.respond v) := by
  obtain ⟨_, hv⟩ := Vector.getElem?_eq_some_iff.1 hcell
  exact (exec_rdw_valid k hdv).2 ⟨v, hv, rfl⟩

/-- R136: RDHEX once the word that character `i` is taken from holds a value. -/
theorem exec_rdhex_held {s : State} {i : BitVec 6} {v : Word} (hdv : s.dv = true)
    (hcell : s.h[(hexWordIndex i).toNat]? = some (some v)) :
    exec (.rdhex i) s = .next (s.respond ((hexChar (nibbleOf v i)).setWidth 32)) := by
  obtain ⟨_, hv⟩ := Vector.getElem?_eq_some_iff.1 hcell
  exact (exec_rdhex_valid i hdv).2 ⟨v, hv, rfl⟩

/-! ### U_ACCUM -/

/-- R131: each word of the sum, as a number; there is no carry between words. -/
theorem held_accumulate_getElem_toNat (h r : Vector Word 8) (k : Fin 8) :
    ∃ v : Word, (held (accumulate h r))[k] = some v ∧ v.toNat = (h[k].toNat + r[k].toNat) % 2 ^ 32 := by
  refine ⟨add32 h[k] r[k], ?_, BitVec.toNat_add _ _⟩
  rw [Fin.getElem_fin, held_getElem, accumulate, Vector.getElem_ofFn]

section registers
variable {s : State} {h r : Vector Word 8} (hh : s.h = held h) (hr : s.r = held r)
include hh hr

/-- R131, `FIN = 0`: a block inside the message. -/
theorem exec_uAccum_inside (hfin : s.fin = 0#2) :
    exec .uAccum s = .next { s with h := held (accumulate h r), phase := .idle } :=
  exec_uAccum.2 ⟨h, r, hh, hr, .inl ⟨hfin, rfl⟩⟩

/-- R131, `FIN = 1`: the length block is still to come. -/
theorem exec_uAccum_lengthPending (hfin : s.fin = 1#2) :
    exec .uAccum s = .next { s with h := held (accumulate h r), phase := .padlen } :=
  exec_uAccum.2 ⟨h, r, hh, hr, .inr (.inl ⟨hfin, rfl⟩)⟩

/-- R131, `FIN = 2`: the digest is complete. -/
theorem exec_uAccum_last (hfin : s.fin = 2#2) :
    exec .uAccum s = .next
      { s with h := held (accumulate h r), dv := true, opened := false, fin := 0#2, phase := .idle } :=
  exec_uAccum.2 ⟨h, r, hh, hr, .inr (.inr ⟨hfin, rfl⟩)⟩

/-- R131, `FIN = 3`: the model fault. -/
theorem exec_uAccum_finThree (hfin : s.fin = 3#2) : exec .uAccum s = .fault .finThree := by
  simp [exec, execUAccum, hh, hr, hfin]

end registers

/-- The three continuations of R15. -/
theorem fin_cases_of_ne_three {f : BitVec 2} (hf : f ≠ 3#2) : f = 0#2 ∨ f = 1#2 ∨ f = 2#2 := by
  revert f; decide

end Sys2Proof.Machine

namespace Sys2Proof.Proofs

open Sys2Proof.Machine

/-- Settles O25: `exec_rdw_held`, and the fault when no digest is valid. -/
theorem rdwRespondsWord : Obligations.RdwRespondsWord := fun k _ =>
  ⟨fun _ hdv hcell => exec_rdw_held hdv hcell, exec_rdw_invalid k⟩

/-- Settles O26: `exec_rdhex_held`, and the character code as a number by `hexChar_setWidth` and `nibbleOf_toNat`. -/
theorem rdhexRespondsCharacter : Obligations.RdhexRespondsCharacter := by
  intro i s
  refine ⟨fun v hdv hcell => ?character, exec_rdhex_invalid i⟩
  case character =>
    rw [← hexWordIndex_toNat] at hcell
    rw [exec_rdhex_held hdv hcell, hexChar_setWidth, nibbleOf_toNat]
    rfl

/-- Settles O32: H and R without an empty cell are `held`; then one case for each value of FIN. -/
theorem accumAddsIntoState : Obligations.AccumAddsIntoState := by
  intro s h r hcells rcells
  have hh : s.h = held h := held_of_cells hcells
  have hr : s.r = held r := held_of_cells rcells
  have hsum := held_accumulate_getElem_toNat h r
  refine ⟨fun hlegal => ?legal, exec_uAccum_finThree hh hr⟩
  case legal =>
    rcases fin_cases_of_ne_three hlegal with hfin | hfin | hfin
    · exact ⟨_, exec_uAccum_inside hh hr hfin, hsum, by simp [hfin]⟩
    · exact ⟨_, exec_uAccum_lengthPending hh hr hfin, hsum, by simp [hfin]⟩
    · exact ⟨_, exec_uAccum_last hh hr hfin, hsum, by simp [hfin]⟩

end Sys2Proof.Proofs
end

section
/-! The statements about the status view and about starting a message (45_engine.md R141, R142; 10_state.md R20): O27, O21. -/

namespace Sys2Proof.Proofs

open Sys2Proof.Machine

/-- Settles O27: the word RDSTAT appends is STATUS, whose number is the sum of its fields by `status_toNat`; what is left is the
code of each ERR value (R18) and of each phase (R58). -/
theorem rdstatRespondsStatus : Obligations.RdstatRespondsStatus := by
  intro s
  refine ⟨s.status, exec_rdstat, ?fields⟩
  case fields =>
    rw [status_toNat, fill_toNat]
    congr 4
    · cases s.err <;> rfl
    · cases s.phase <;> rfl

/-- Settles O21: `exec_init` is the whole next state, and its H holds the table's constant in each cell. -/
theorem initStartsMessage : Obligations.InitStartsMessage := fun _ =>
  ⟨_, exec_init, fun k => held_getElem h0Table k k.isLt, rfl⟩

end Sys2Proof.Proofs
end

section
/-! The invariant of the reachable states (10_state.md R23, 70_reset_and_hazards.md R181) by kind of phase, one step from a
state that meets it, and the statements that rest on it (O39 to O42). -/

namespace Sys2Proof.Machine

variable {s t : State}

/-! ### The invariant in PH_IDLE and in the busy phases -/

/-- What the invariant says of every busy engine: a message is open, no digest is valid, no fault, and H and BLK are held. -/
structure State.BusyCore (s : State) : Prop where
  lenAligned : s.len.extractLsb' 0 3 = 0#3
  lenBound : s.len ≤ maxBits
  opened : s.opened = true
  dv : s.dv = false
  finLegal : s.fin ≠ 3#2
  err : s.err = .noFault
  heldH : allHeld s.h
  heldBlk : allHeld s.blk

/-- What the invariant says of T, FIN, W and R in the busy phase the engine is in. -/
def State.phaseReady (s : State) : Prop :=
  match s.phase with
  | .loadw => s.t = 0#6 ∨ s.t = 63#6
  | .expand => 16 ≤ s.t.toNat ∧ heldBelow s.w s.t.toNat
  | .winit => s.t = 63#6 ∧ allHeld s.w
  | .round => allHeld s.w ∧ allHeld s.r
  | .accum => s.t = 63#6 ∧ allHeld s.r
  | .padlen => s.t = 63#6 ∧ s.fin = 1#2
  | .idle => False
  | .fault => False

theorem busyCore_of_inv (hs : s.Inv) (hb : isBusy s.phase = true) : s.BusyCore where
  lenAligned := hs.lenAligned
  lenBound := hs.lenBound
  opened := hs.busyOpen hb
  dv := by simpa [hs.busyOpen hb] using hs.flagsExclusive
  finLegal := hs.finLegal
  err := by
    by_contra he
    rw [hs.errFault.1 he] at hb
    cases hb
  heldH := hs.heldH (.inl (hs.busyOpen hb))
  heldBlk := hs.heldBlkBusy hb

theorem inv_of_busyCore (hc : s.BusyCore) (hr : s.phaseReady) : s.Inv := by
  unfold State.phaseReady at hr
  constructor
  case lenAligned => exact hc.lenAligned
  case lenBound => exact hc.lenBound
  case flagsExclusive => simp [hc.dv]
  case finLegal => exact hc.finLegal
  case errFault => cases hp : s.phase <;> simp_all [hc.err]
  case busyOpen => exact fun _ => hc.opened
  case heldH => exact fun _ => hc.heldH
  case heldBlkIdle => exact fun _ _ => heldBelow_of_allHeld hc.heldBlk _
  case heldBlkBusy => exact fun _ => hc.heldBlk
  all_goals
    intro hp
    cases hq : s.phase <;> simp_all

theorem inv_of_idle (hp : s.phase = .idle) (ha : s.len.extractLsb' 0 3 = 0#3) (hb : s.len ≤ maxBits)
    (hx : ¬ (s.opened = true ∧ s.dv = true)) (hf : s.fin = 0#2) (he : s.err = .noFault) (ht : s.t = 0#6 ∨ s.t = 63#6)
    (hh : s.opened = true ∨ s.dv = true → allHeld s.h) (hblk : s.opened = true → heldBelow s.blk s.fill.toNat) : s.Inv := by
  constructor <;> simp_all [isBusy]

theorem err_of_inv_idle (hs : s.Inv) (hp : s.phase = .idle) : s.err = .noFault := by
  by_contra he
  rw [hs.errFault.1 he] at hp
  cases hp

/-! ### Micro-operations -/

theorem heldBelow_set_succ {α : Type} {n k : Nat} {w : Vector (Option α) n} (h : heldBelow w k) (hk : k < n) (v : α) :
    heldBelow (w.set k (some v) hk) (k + 1) := by
  intro i hi
  by_cases hki : k = i.val
  · simp [hki]
  · simpa [Vector.getElem_set, hki] using h i (by omega)

theorem heldBelow_loadedSchedule (w : Vector (Option Word) 64) (b : Vector Byte 64) : heldBelow (loadedSchedule w b) 16 := by
  intro i hi
  simp [loadedSchedule, hi]

theorem some_of_heldBelow {α : Type} {n k : Nat} {v : Vector (Option α) n} (h : heldBelow v k) {i : Nat} (hi : i < k)
    (hn : i < n) : ∃ x, v[i]? = some (some x) := by
  obtain ⟨x, hx⟩ := Option.isSome_iff_exists.1 (h ⟨i, hn⟩ hi)
  exact ⟨x, by rw [Vector.getElem?_eq_getElem hn]; exact congrArg some hx⟩

section microOperations
variable (hc : s.BusyCore)
include hc

/-- The control state that a micro-operation leaves alone keeps what the invariant says of it. -/
theorem busyCore_congr (hlen : t.len = s.len) (hopen : t.opened = s.opened) (hdv : t.dv = s.dv) (herr : t.err = s.err)
    (hfin : t.fin ≠ 3#2) (hh : allHeld t.h) (hblk : allHeld t.blk) : t.BusyCore where
  lenAligned := hlen ▸ hc.lenAligned
  lenBound := hlen ▸ hc.lenBound
  opened := hopen ▸ hc.opened
  dv := hdv ▸ hc.dv
  finLegal := hfin
  err := herr ▸ hc.err
  heldH := hh
  heldBlk := hblk

theorem uLoadw_inv : ∃ t, exec .uLoadw s = .next t ∧ t.Inv := by
  obtain ⟨b, hb⟩ := held_of_allHeld hc.heldBlk
  refine ⟨_, exec_uLoadw_held hb, inv_of_busyCore (busyCore_congr hc rfl rfl rfl rfl hc.finLegal hc.heldH hc.heldBlk) ?_⟩
  exact ⟨le_rfl, heldBelow_loadedSchedule s.w b⟩

theorem uExpand_inv (hp : s.phase = .expand) (hT : 16 ≤ s.t.toNat) (hw : heldBelow s.w s.t.toNat) :
    ∃ t, exec .uExpand s = .next t ∧ t.Inv := by
  have hlt := s.t.isLt
  obtain ⟨w16, h16⟩ := some_of_heldBelow hw (i := s.t.toNat - 16) (by omega) (by omega)
  obtain ⟨w15, h15⟩ := some_of_heldBelow hw (i := s.t.toNat - 15) (by omega) (by omega)
  obtain ⟨w7, h7⟩ := some_of_heldBelow hw (i := s.t.toNat - 7) (by omega) (by omega)
  obtain ⟨w2, h2⟩ := some_of_heldBelow hw (i := s.t.toNat - 2) (by omega) (by omega)
  refine ⟨_, exec_uExpand_held hT h16 h15 h7 h2, inv_of_busyCore (busyCore_congr hc rfl rfl rfl rfl hc.finLegal hc.heldH hc.heldBlk) ?_⟩
  have hset := heldBelow_set_succ hw s.t.isLt (expandWord w16 w15 w7 w2)
  by_cases hlast : s.t = 63#6
  · have hT63 : s.t.toNat + 1 = 64 := by rw [hlast]; rfl
    rw [hT63] at hset
    simpa [State.phaseReady, hlast] using allHeld_of_heldBelow hset
  · rw [← t_add_one_toNat (fun h => hlast ((eq_63_iff s.t).2 h))] at hset
    have hT' : 16 ≤ (s.t + 1#6).toNat := by rw [t_add_one_toNat fun h => hlast ((eq_63_iff s.t).2 h)]; omega
    simpa only [State.phaseReady, hlast, hp, if_false] using ⟨hT', hset⟩

theorem uWinit_inv (hw : allHeld s.w) : ∃ t, exec .uWinit s = .next t ∧ t.Inv := by
  obtain ⟨h, hh⟩ := held_of_allHeld hc.heldH
  refine ⟨_, exec_uWinit_held hh, inv_of_busyCore (busyCore_congr hc rfl rfl rfl rfl hc.finLegal hc.heldH hc.heldBlk) ?_⟩
  exact ⟨hw, allHeld_held h⟩

theorem uRound_inv (hp : s.phase = .round) (hw : allHeld s.w) (hr : allHeld s.r) :
    ∃ t, exec .uRound s = .next t ∧ t.Inv := by
  obtain ⟨r, hr⟩ := held_of_allHeld hr
  obtain ⟨w, hwt⟩ := Option.isSome_iff_exists.1 (hw ⟨s.t.toNat, s.t.isLt⟩)
  refine ⟨_, exec_uRound_held hr hwt, inv_of_busyCore (busyCore_congr hc rfl rfl rfl rfl hc.finLegal hc.heldH hc.heldBlk) ?_⟩
  have hr' := allHeld_held (roundUpdate r (roundConstant s.t) w)
  by_cases hlast : s.t = 63#6
  · simpa only [State.phaseReady, hlast, if_true, true_and] using hr'
  · simpa only [State.phaseReady, hlast, hp, if_false] using ⟨hw, hr'⟩

theorem uAccum_inv (hT : s.t = 63#6) (hr : allHeld s.r) : ∃ t, exec .uAccum s = .next t ∧ t.Inv := by
  obtain ⟨h, hh⟩ := held_of_allHeld hc.heldH
  obtain ⟨r, hr⟩ := held_of_allHeld hr
  have hsum := allHeld_held (accumulate h r)
  rcases fin_cases_of_ne_three hc.finLegal with hfin | hfin | hfin
  · exact ⟨_, exec_uAccum_inside hh hr hfin, inv_of_idle rfl hc.lenAligned hc.lenBound (by simp [hc.dv]) hfin hc.err
      (.inr hT) (fun _ => hsum) fun _ => heldBelow_of_allHeld hc.heldBlk _⟩
  · exact ⟨_, exec_uAccum_lengthPending hh hr hfin, inv_of_busyCore
      (busyCore_congr hc rfl rfl rfl rfl hc.finLegal hsum hc.heldBlk) ⟨hT, hfin⟩⟩
  · exact ⟨_, exec_uAccum_last hh hr hfin, inv_of_idle rfl hc.lenAligned hc.lenBound (by simp) rfl hc.err
      (.inr hT) (fun _ => hsum) fun ho => by cases ho⟩

theorem uPadlen_inv (hT : s.t = 63#6) : ∃ t, exec .uPadlen s = .next t ∧ t.Inv := by
  have hblk : allHeld (padlenBlock s.len) := by
    rw [padlenBlock_held]
    exact allHeld_held _
  have hfin : (2#2 : BitVec 2) ≠ 3#2 := by decide
  exact ⟨_, exec_uPadlen, inv_of_busyCore (busyCore_congr hc rfl rfl rfl rfl hfin hc.heldH hblk) (.inr hT)⟩

end microOperations

/-! ### Commands -/

section commands
variable (hs : s.Inv) (hp : s.phase = .idle)
include hs hp

theorem raise_inv {i : Instr} {c : ErrCode} (h : exec i s = .next (s.raiseFault c)) (hc : c ≠ .noFault) :
    ∃ t, exec i s = .next t ∧ t.Inv :=
  ⟨_, h, inv_fault hs hp c hc⟩

theorem init_inv : ∃ t, exec .init s = .next t ∧ t.Inv := by
  have herr := err_of_inv_idle hs hp
  refine ⟨_, exec_init, inv_of_idle hp ?aligned ?bound ?flags rfl herr (hs.restIndex (.inl hp)) (fun _ => allHeld_held h0Table)
    ?blk⟩
  case aligned => rfl
  case bound => exact (by decide : 0#64 ≤ maxBits)
  case flags => simp
  case blk =>
    have hfill : (fillOf 0#64).toNat = 0 := rfl
    exact fun _ i (hi : i.val < (fillOf 0#64).toNat) => absurd (hfill ▸ hi) (Nat.not_lt_zero i)

theorem push_inv (cp : CodePoint) : ∃ t, exec (.push cp) s = .next t ∧ t.Inv := by
  cases ho : s.opened with
  | false => exact raise_inv hs hp (exec_push_closed cp ho) (by decide)
  | true =>
    by_cases hl : s.len = maxBits
    · exact raise_inv hs hp (exec_push_full cp ho hl) (by decide)
    · obtain ⟨ha, hb, hnext, -⟩ := len_add_eight s.len hs.lenAligned hs.lenBound hl
      have hdv : s.dv = false := by simpa [ho] using hs.flagsExclusive
      have hh : allHeld s.h := hs.heldH (.inl ho)
      have herr := err_of_inv_idle hs hp
      have hset := heldBelow_set_succ (hs.heldBlkIdle ho hp) s.fill.isLt (codeUnit cp)
      refine ⟨_, exec_push_open cp ho hl, ?_⟩
      by_cases hfull : s.fill = 63#6
      · refine inv_of_busyCore ⟨ha, hb, ho, hdv, hs.finLegal, herr, hh, fun j => hset j ?cell⟩ ?ready
        case cell => rw [(eq_63_iff s.fill).1 hfull]; exact j.isLt
        case ready => simpa [State.phaseReady, hfull] using hs.restIndex (.inl hp)
      · have hphase : (if s.fill = 63#6 then Phase.loadw else s.phase) = .idle := by rw [if_neg hfull, hp]
        have hfill := hnext fun h => hfull ((eq_63_iff s.fill).2 h)
        refine inv_of_idle hphase ha hb (by simp [hdv]) (hs.finIdle hp) herr (hs.restIndex (.inl hp))
          (fun _ => hh) fun _ => ?_
        show heldBelow _ (fillOf (s.len + 8#64)).toNat
        rw [hfill]
        exact hset

theorem final_inv : ∃ t, exec .final s = .next t ∧ t.Inv := by
  cases ho : s.opened with
  | false => exact raise_inv hs hp (exec_final_closed ho) (by decide)
  | true =>
    have herr := err_of_inv_idle hs hp
    have hdv : s.dv = false := by simpa [ho] using hs.flagsExclusive
    have hfin : (if s.fill ≤ 55#6 then 2#2 else 1#2) ≠ 3#2 := by split_ifs <;> decide
    exact ⟨_, exec_final_open ho, inv_of_busyCore ⟨hs.lenAligned, hs.lenBound, ho, hdv, hfin, herr, hs.heldH (.inl ho),
      allHeld_finalBlock (hs.heldBlkIdle ho hp)⟩ (hs.restIndex (.inl hp))⟩

omit hp in
theorem respond_inv (v : Word) : (s.respond v).Inv := inv_streams hs s.cmdq (s.respq ++ [v])

theorem rdw_inv (k : BitVec 3) : ∃ t, exec (.rdw k) s = .next t ∧ t.Inv := by
  cases hd : s.dv with
  | false => exact raise_inv hs hp (exec_rdw_invalid k hd) (by decide)
  | true =>
    obtain ⟨v, hv⟩ := Option.isSome_iff_exists.1 (hs.heldH (.inr hd) ⟨k.toNat, k.isLt⟩)
    exact ⟨_, (exec_rdw_valid k hd).2 ⟨v, hv, rfl⟩, respond_inv hs v⟩

theorem rdhex_inv (i : BitVec 6) : ∃ t, exec (.rdhex i) s = .next t ∧ t.Inv := by
  cases hd : s.dv with
  | false => exact raise_inv hs hp (exec_rdhex_invalid i hd) (by decide)
  | true =>
    obtain ⟨v, hv⟩ := Option.isSome_iff_exists.1 (hs.heldH (.inr hd) ⟨(hexWordIndex i).toNat, (hexWordIndex i).isLt⟩)
    exact ⟨_, (exec_rdhex_valid i hd).2 ⟨v, hv, rfl⟩, respond_inv hs _⟩

/-- A command in PH_IDLE answers a next state that meets the invariant. -/
theorem command_inv {i : Instr} (hi : i.isCommand = true) : ∃ t, exec i s = .next t ∧ t.Inv := by
  cases i with
  | init => exact init_inv hs hp
  | push cp => exact push_inv hs hp cp
  | final => exact final_inv hs hp
  | rdw k => exact rdw_inv hs hp k
  | rdhex i => exact rdhex_inv hs hp i
  | rdstat => exact ⟨_, exec_rdstat, respond_inv hs _⟩
  | uLoadw | uExpand | uWinit | uRound | uAccum | uPadlen => cases hi

end commands

/-! ### Steps and events -/

theorem busy_step_inv (hs : s.Inv) (hb : isBusy s.phase = true) : ∃ t, step s = .next t ∧ t.Inv := by
  have hc := busyCore_of_inv hs hb
  have htab := inv_inTransitionTable hs
  obtain ⟨i, hi, -⟩ := uop_of_busy hb
  rw [step_busy hi htab]
  cases hp : s.phase <;> rw [hp] at hi hb <;> cases hi
  case loadw => exact uLoadw_inv hc
  case expand => exact uExpand_inv hc hp (hs.expandIndex hp) (hs.heldWExpand hp)
  case winit => exact uWinit_inv hc (hs.heldW (.inl hp))
  case round => exact uRound_inv hc hp (hs.heldW (.inr hp)) (hs.heldR (.inl hp))
  case accum => exact uAccum_inv hc (hs.lastIndex (.inr (.inl hp))) (hs.heldR (.inr hp))
  case padlen => exact uPadlen_inv hc (hs.lastIndex (.inr (.inr hp)))

theorem idle_step_inv (hs : s.Inv) (hp : s.phase = .idle) : ∃ t, step s = .next t ∧ t.Inv := by
  cases hq : s.cmdq with
  | nil => exact ⟨s, step_idle_nil hp hq, hs⟩
  | cons w rest =>
    have hs' : State.Inv { s with cmdq := rest } := inv_streams hs rest s.respq
    cases hd : decode w with
    | ok i => rw [step_idle_legal hp hq hd]; exact command_inv hs' hp (decode_isCommand hd)
    | error e => exact ⟨_, step_idle_illegal hp hq hd, inv_fault hs' hp _ (by decide)⟩

theorem fault_step_inv (hs : s.Inv) (hp : s.phase = .fault) : ∃ t, step s = .next t ∧ t.Inv := by
  cases hq : s.cmdq with
  | nil => exact ⟨s, step_fault_nil hp hq, hs⟩
  | cons w rest =>
    by_cases hd : decode w = .ok .rdstat
    · exact ⟨_, step_fault_rdstat hp hq hd, inv_streams hs rest _⟩
    · exact ⟨_, step_fault_other hp hq hd, inv_streams hs rest s.respq⟩

/-- A step from a state that meets the invariant answers a next state that meets it. -/
theorem step_inv (hs : s.Inv) : ∃ t, step s = .next t ∧ t.Inv := by
  by_cases hb : isBusy s.phase = true
  · exact busy_step_inv hs hb
  · cases hp : s.phase <;> rw [hp] at hb
    case idle => exact idle_step_inv hs hp
    case fault => exact fault_step_inv hs hp
    all_goals exact absurd rfl hb

theorem reset_inv : State.reset.Inv :=
  inv_of_idle rfl (by decide) (by decide) (by simp) rfl rfl (.inl rfl) (by simp) (by simp)

theorem event_inv (hs : s.Inv) (e : HostEvent) : ∃ t, e.apply s = .next t ∧ t.Inv := by
  cases e with
  | append w => exact ⟨_, rfl, inv_streams hs (s.cmdq ++ [w]) s.respq⟩
  | takeResponse => exact ⟨_, rfl, inv_streams hs s.cmdq s.respq.tail⟩
  | reset => exact ⟨_, rfl, reset_inv⟩
  | engine => exact step_inv hs

theorem runEvents_cons {e : HostEvent} {es : List HostEvent} (h : e.apply s = .next t) :
    runEvents (e :: es) s = runEvents es t := by
  simp [runEvents, h]

end Sys2Proof.Machine

namespace Sys2Proof.Proofs

open Sys2Proof.Machine

/-- Settles O39: at reset the engine is idle, nothing is open or valid, and T is 0. -/
theorem resetMeetsInvariant : Obligations.ResetMeetsInvariant := reset_inv

/-- Settles O40: the next state of `step_inv` is the step's answer. -/
theorem stepKeepsInvariant : Obligations.StepKeepsInvariant := by
  intro s t hs h
  obtain ⟨t', h', ht'⟩ := step_inv hs
  obtain rfl : t' = t := next_inj.1 (h'.symm.trans h)
  exact ht'

/-- Settles O41: `step_inv`, one case for each kind of phase. -/
theorem noStepFaultsUnderInvariant : Obligations.NoStepFaultsUnderInvariant := fun _ hs =>
  (step_inv hs).imp fun _ h => h.1

/-- Settles O42, by induction on the sequence of events, each of which answers and keeps the invariant. -/
theorem anyInterleavingIsSafe : Obligations.AnyInterleavingIsSafe := by
  intro es
  induction es with
  | nil => exact fun s hs => ⟨s, rfl, hs⟩
  | cons e es ih =>
    intro s hs
    obtain ⟨u, he, hu⟩ := event_inv hs e
    rw [runEvents_cons he]
    exact ih u hu

end Sys2Proof.Proofs
end

section
/-! What one step does, by PHASE and the head of CMDQ (45_engine.md R145, R146; 60_exceptions.md R162 to R165, R175), and the
statements about the step rule (O13 to O20, O59). -/

namespace Sys2Proof.Machine

variable {s t : State}

/-! ### The phases -/

theorem idle_or_fault_of_not_busy {p : Phase} (h : ¬ isBusy p = true) : p = .idle ∨ p = .fault := by
  cases p <;> simp_all [isBusy]

theorem not_busy_of_idle_or_fault {p : Phase} (h : p = .idle ∨ p = .fault) : isBusy p = false := by
  rcases h with rfl | rfl <;> rfl

theorem decodeTableWord_phaseCode (p : Phase) : decodeTableWord 8 (phaseCode p).toNat = uopOf p := by
  cases p <;> rfl

/-- The T that the transition table has in a busy phase (45_engine.md R146). -/
theorem inTransitionTable_of_rows (hload : s.phase = .loadw → s.t = 0#6 ∨ s.t = 63#6) (hexp : s.phase = .expand → 16 ≤ s.t.toNat)
    (hlast : s.phase = .winit ∨ s.phase = .accum ∨ s.phase = .padlen → s.t = 63#6) :
    inTransitionTable s.phase s.t = true := by
  cases hp : s.phase
  case loadw => exact hp ▸ inTransitionTable_loadw hp (hload hp)
  case expand => exact hp ▸ inTransitionTable_expand hp (hexp hp)
  case winit => exact hp ▸ inTransitionTable_last (.inl hp) (hlast (.inl hp))
  case accum => exact hp ▸ inTransitionTable_last (.inr (.inl hp)) (hlast (.inr (.inl hp)))
  case padlen => exact hp ▸ inTransitionTable_last (.inr (.inr hp)) (hlast (.inr (.inr hp)))
  case idle | round | fault => rfl

/-! ### Instructions and CMDQ -/

/-- An instruction does the same whatever CMDQ holds, and leaves it alone. -/
theorem exec_ignores_cmdq {i : Instr} (h : exec i s = .next t) (q : List Word) :
    exec i { s with cmdq := q } = .next { t with cmdq := q } := by
  cases i with
  | init => rw [exec_init] at h; cases h; rfl
  | push cp =>
    rcases Bool.eq_false_or_eq_true s.opened with ho | ho
    · by_cases hl : s.len = maxBits
      · rw [exec_push_full cp ho hl] at h; cases h
        exact exec_push_full (s := { s with cmdq := q }) cp ho hl
      · rw [exec_push_open cp ho hl] at h; cases h
        exact exec_push_open (s := { s with cmdq := q }) cp ho hl
    · rw [exec_push_closed cp ho] at h; cases h
      exact exec_push_closed (s := { s with cmdq := q }) cp ho
  | final =>
    rcases Bool.eq_false_or_eq_true s.opened with ho | ho
    · rw [exec_final_open ho] at h; cases h
      exact exec_final_open (s := { s with cmdq := q }) ho
    · rw [exec_final_closed ho] at h; cases h
      exact exec_final_closed (s := { s with cmdq := q }) ho
  | rdw k =>
    rcases Bool.eq_false_or_eq_true s.dv with hd | hd
    · obtain ⟨v, hv, rfl⟩ := (exec_rdw_valid k hd).1 h
      exact (exec_rdw_valid (s := { s with cmdq := q }) k hd).2 ⟨v, hv, rfl⟩
    · rw [exec_rdw_invalid k hd] at h; cases h
      exact exec_rdw_invalid (s := { s with cmdq := q }) k hd
  | rdhex k =>
    rcases Bool.eq_false_or_eq_true s.dv with hd | hd
    · obtain ⟨v, hv, rfl⟩ := (exec_rdhex_valid k hd).1 h
      exact (exec_rdhex_valid (s := { s with cmdq := q }) k hd).2 ⟨v, hv, rfl⟩
    · rw [exec_rdhex_invalid k hd] at h; cases h
      exact exec_rdhex_invalid (s := { s with cmdq := q }) k hd
  | rdstat => rw [exec_rdstat] at h; cases h; rfl
  | uLoadw => obtain ⟨b, hb, rfl⟩ := exec_uLoadw.1 h; exact exec_uLoadw.2 ⟨b, hb, rfl⟩
  | uExpand =>
    obtain ⟨h16, a, b, c, d, ha, hb, hc, hd, rfl⟩ := exec_uExpand.1 h
    exact exec_uExpand.2 ⟨h16, a, b, c, d, ha, hb, hc, hd, rfl⟩
  | uWinit => obtain ⟨v, hv, rfl⟩ := exec_uWinit.1 h; exact exec_uWinit.2 ⟨v, hv, rfl⟩
  | uRound => obtain ⟨r, w, hr, hw, rfl⟩ := exec_uRound.1 h; exact exec_uRound.2 ⟨r, w, hr, hw, rfl⟩
  | uAccum =>
    obtain ⟨v, r, hv, hr, ⟨hf, rfl⟩ | ⟨hf, rfl⟩ | ⟨hf, rfl⟩⟩ := exec_uAccum.1 h
    · exact exec_uAccum_inside (s := { s with cmdq := q }) hv hr hf
    · exact exec_uAccum_lengthPending (s := { s with cmdq := q }) hv hr hf
    · exact exec_uAccum_last (s := { s with cmdq := q }) hv hr hf
  | uPadlen => rw [exec_uPadlen] at h ⊢; cases h; rfl

theorem uopOf_isSome_iff {p : Phase} : (∃ i, uopOf p = some i) ↔ isBusy p = true := by
  cases p <;> simp [uopOf, isBusy]

/-- A step in a busy phase is its micro-operation, at a T of the transition table. -/
theorem busy_step_spec (hb : isBusy s.phase = true) (h : step s = .next t) :
    ∃ i, uopOf s.phase = some i ∧ inTransitionTable s.phase s.t = true ∧ exec i s = .next t := by
  rcases step_spec h with hu | ⟨-, hp, -⟩ | ⟨w, rest, -, hp, -⟩ | ⟨w, rest, -, hp, -⟩
  · exact hu
  · rw [not_busy_of_idle_or_fault hp] at hb; cases hb
  · rw [hp] at hb; cases hb
  · rw [hp] at hb; cases hb

/-! ### PH_FAULT -/

/-- The only word that decodes to RDSTAT. -/
theorem decode_eq_rdstat_iff {w : Word} : decode w = .ok .rdstat ↔ w = 0x60000000#32 := by
  constructor
  · intro h
    rw [decode_cases] at h
    split_ifs at h with _ _ _ _ _ h6
    · cases h
    · cases h
    · cases h
    · cases h
    · cases h
    · exact BitVec.eq_of_toNat_eq h6
  · rintro rfl
    exact decode_rdstat_word

/-- The responses of PH_FAULT to the words it takes: one STATUS for each RDSTAT. -/
def statusReplies (s : State) (ws : List Word) : List Word :=
  (ws.filter (· == 0x60000000#32)).map fun _ => s.status

/-- R164: a step in PH_FAULT removes the head word, if there is one, and answers it with STATUS exactly when it is RDSTAT. -/
theorem fault_step (hp : s.phase = .fault) :
    step s = .next { s with cmdq := s.cmdq.drop 1, respq := s.respq ++ statusReplies s (s.cmdq.take 1) } := by
  cases hq : s.cmdq with
  | nil =>
    have hs : s = { s with cmdq := [] } := by rw [← hq]
    rw [step_fault_nil hp hq]
    simpa [statusReplies] using hs
  | cons w rest =>
    by_cases hd : decode w = .ok .rdstat
    · rw [step_fault_rdstat hp hq hd]
      simp [statusReplies, decode_eq_rdstat_iff.1 hd, exec_rdstat, State.respond, State.status, State.fill]
    · have hw : ¬ w = 0x60000000#32 := mt decode_eq_rdstat_iff.2 hd
      rw [step_fault_other hp hq hd]
      simp [statusReplies, hw]

/-! ### The pairs (PHASE, T) after an instruction -/

theorem command_phase_t {i : Instr} (hi : i.isCommand = true) (h : exec i s = .next t) :
    (t.phase = s.phase ∨ t.phase = .loadw ∨ t.phase = .fault) ∧ t.t = s.t := by
  have hspec := exec_spec h
  cases i with
  | init => obtain rfl : t = _ := hspec; exact ⟨.inl rfl, rfl⟩
  | push cp =>
    rcases hspec with ⟨-, rfl⟩ | ⟨-, -, rfl⟩ | ⟨-, -, rfl⟩
    · exact ⟨.inr (.inr rfl), rfl⟩
    · exact ⟨.inr (.inr rfl), rfl⟩
    · refine ⟨?_, rfl⟩
      by_cases hfull : s.fill = 63#6
      · exact .inr (.inl (if_pos hfull))
      · exact .inl (if_neg hfull)
  | final =>
    rcases hspec with ⟨-, rfl⟩ | ⟨-, rfl⟩
    · exact ⟨.inr (.inr rfl), rfl⟩
    · exact ⟨.inr (.inl rfl), rfl⟩
  | rdw k | rdhex k =>
    rcases hspec with ⟨-, rfl⟩ | ⟨-, v, rfl⟩
    · exact ⟨.inr (.inr rfl), rfl⟩
    · exact ⟨.inl rfl, rfl⟩
  | rdstat => obtain rfl : t = _ := hspec; exact ⟨.inl rfl, rfl⟩
  | uLoadw | uExpand | uWinit | uRound | uAccum | uPadlen => cases hi

/-- T counts up, or stays at its last value and the phase `p` follows. -/
theorem count_t_cases {p q : Phase} (hphase : t.phase = if s.t = 63#6 then q else p)
    (ht : t.t = if s.t = 63#6 then s.t else s.t + 1#6) :
    t.phase = p ∧ s.t ≠ 63#6 ∧ t.t = s.t + 1 ∨ t.phase = q ∧ s.t = 63#6 ∧ t.t = 63#6 := by
  by_cases hlast : s.t = 63#6
  · rw [if_pos hlast] at hphase ht
    exact .inr ⟨hphase, hlast, ht.trans hlast⟩
  · rw [if_neg hlast] at hphase ht
    exact .inl ⟨hphase, hlast, ht⟩

/-- A step in PH_IDLE leaves T alone, and goes to PH_LOADW or PH_FAULT if it leaves PH_IDLE. -/
theorem idle_step_phase_t (hp : s.phase = .idle) (h : step s = .next t) :
    (t.phase = .idle ∨ t.phase = .loadw ∨ t.phase = .fault) ∧ t.t = s.t := by
  cases hq : s.cmdq with
  | nil =>
    rw [step_idle_nil hp hq] at h; cases h
    exact ⟨.inl hp, rfl⟩
  | cons w rest =>
    cases hd : decode w with
    | ok i =>
      rw [step_idle_legal hp hq hd] at h
      obtain ⟨hphase, ht⟩ := command_phase_t (decode_isCommand hd) h
      exact ⟨hphase.imp_left fun e => e.trans hp, ht⟩
    | error e =>
      rw [step_idle_illegal hp hq hd] at h; cases h
      exact ⟨.inr (.inr rfl), rfl⟩

end Sys2Proof.Machine

namespace Sys2Proof.Proofs

open Sys2Proof.Machine

/-- Settles O13: the step rule in PH_IDLE with a legal word at the head. -/
theorem stepRunsDecodedCommand : Obligations.StepRunsDecodedCommand := fun _ _ _ _ hp hq hd => step_idle_legal hp hq hd

/-- Settles O14: the code of a busy phase selects the phase's micro-operation, and the hypotheses put T in the table. -/
theorem stepRunsPhaseMicroOp : Obligations.StepRunsPhaseMicroOp := by
  intro s hb hload hexp hlast
  obtain ⟨i, hi, hcmd⟩ := uop_of_busy hb
  exact ⟨i, (decodeTableWord_phaseCode s.phase).trans hi, hcmd, step_busy hi (inTransitionTable_of_rows hload hexp hlast)⟩

/-- Settles O59: each of the three kinds of pair is outside the table. -/
theorem outsideTableStops : Obligations.OutsideTableStops := by
  intro s h
  apply step_outside
  rcases h with ⟨hp, h0, h63⟩ | ⟨hp, h16⟩ | ⟨hp | hp | hp, h63⟩
  · simpa [hp, inTransitionTable] using ⟨h0, h63⟩
  · simpa [hp, inTransitionTable] using h16
  all_goals simpa [hp, inTransitionTable] using h63

/-- Settles O15: `step_idle_illegal` is the whole next state. -/
theorem illegalWordFaults : Obligations.IllegalWordFaults := fun _ _ _ _ hp hq hd => step_idle_illegal hp hq hd

/-- Settles O16, by induction on the number of steps; STATUS is the same after each, since nothing it shows changes. -/
theorem faultPhaseOnlyAnswersStatus : Obligations.FaultPhaseOnlyAnswersStatus := by
  intro n
  induction n with
  | zero => intro s _; simp only [List.take_zero, List.filter_nil, List.map_nil, List.append_nil]; rfl
  | succ n ih =>
    intro s hp
    refine (run_succ_next (fault_step hp)).trans 
      ((ih { s with cmdq := s.cmdq.drop 1, respq := s.respq ++ statusReplies s (s.cmdq.take 1) } hp).trans ?_)
    have htake : s.cmdq.take (n + 1) = s.cmdq.take 1 ++ (s.cmdq.drop 1).take n := by
      rw [Nat.add_comm, List.take_add]
    simp [htake, statusReplies, State.status, State.fill]

/-- Settles O17: with nothing to take, the two waiting phases stay as they are. -/
theorem emptyQueueWaits : Obligations.EmptyQueueWaits := by
  intro s hq hp
  refine ⟨by simp [State.stepEnabled, hq, not_busy_of_idle_or_fault hp], ?_⟩
  rcases hp with hp | hp
  · exact step_idle_nil hp hq
  · exact step_fault_nil hp hq

/-- Settles O18: a busy step is its micro-operation, and every instruction ignores CMDQ. -/
theorem busyStepHoldsCommands : Obligations.BusyStepHoldsCommands := by
  intro s t q hb h
  obtain ⟨i, hi, htab, hexec⟩ := busy_step_spec hb h
  refine ⟨by simp [State.stepEnabled, hb], exec_keeps_cmdq hexec, ?_⟩
  exact (step_busy (s := { s with cmdq := q }) hi htab).trans (exec_ignores_cmdq hexec q)

/-- Settles O19: `exec_keeps_cmdq`, and the head word taken in each case of `step_spec` that has one. -/
theorem commandsTakenFromHead : Obligations.CommandsTakenFromHead := by
  intro s t h
  rcases step_spec h with ⟨i, hi, -, hexec⟩ | ⟨hq, -, rfl⟩ | ⟨w, rest, hq, hp, ⟨i, -, hexec⟩ | ⟨e, -, rfl⟩⟩ |
    ⟨w, rest, hq, hp, ⟨-, rfl⟩ | ⟨-, rfl⟩⟩
  · exact .inl ⟨exec_keeps_cmdq hexec, .inl (uopOf_isSome_iff.1 ⟨i, hi⟩)⟩
  · exact .inl ⟨rfl, .inr hq⟩
  · have hkeep : t.cmdq = rest := exec_keeps_cmdq hexec
    exact .inr ⟨w, hkeep ▸ hq, .inl hp⟩
  · exact .inr ⟨w, hq, .inl hp⟩
  · exact .inr ⟨w, hq, .inr hp⟩
  · exact .inr ⟨w, hq, .inr hp⟩

/-- Settles O20: one row of the table for each phase; in a busy phase the step is the phase's micro-operation, at a T of the
table. -/
theorem phaseTransitions : Obligations.PhaseTransitions := by
  intro s t h
  by_cases hb : isBusy s.phase = true
  case pos =>
    obtain ⟨i, hi, htab, hexec⟩ := busy_step_spec hb h
    cases hp : s.phase <;> rw [hp] at hi hb htab <;> cases hi <;> dsimp only
    case loadw =>
      obtain ⟨b, -, rfl⟩ := exec_uLoadw.1 hexec
      exact ⟨by simpa [inTransitionTable] using htab, rfl, rfl⟩
    case expand =>
      obtain ⟨h16, _, _, _, _, -, -, -, -, rfl⟩ := exec_uExpand.1 hexec
      exact ⟨h16, count_t_cases (by rw [hp]) rfl⟩
    case winit =>
      obtain ⟨_, -, rfl⟩ := exec_uWinit.1 hexec
      exact ⟨by simpa [inTransitionTable] using htab, rfl, rfl⟩
    case round =>
      obtain ⟨_, _, -, -, rfl⟩ := exec_uRound.1 hexec
      exact count_t_cases (by rw [hp]) rfl
    case accum =>
      have hT : s.t = 63#6 := by simpa [inTransitionTable] using htab
      obtain ⟨_, _, -, -, ⟨hf, rfl⟩ | ⟨hf, rfl⟩ | ⟨hf, rfl⟩⟩ := exec_uAccum.1 hexec
      · exact ⟨hT, hT, .inl ⟨rfl, .inl hf⟩⟩
      · exact ⟨hT, hT, .inr ⟨rfl, hf⟩⟩
      · exact ⟨hT, hT, .inl ⟨rfl, .inr hf⟩⟩
    case padlen =>
      have hT : s.t = 63#6 := by simpa [inTransitionTable] using htab
      rw [exec_uPadlen] at hexec; cases hexec
      exact ⟨hT, rfl, hT⟩
  case neg =>
    rcases idle_or_fault_of_not_busy hb with hp | hp <;> rw [hp] <;> dsimp only
    · obtain ⟨hphase | hphase | hphase, ht⟩ := idle_step_phase_t hp h
      · exact .inl ⟨hphase, ht⟩
      · exact .inr (.inl ⟨hphase, ht⟩)
      · exact .inr (.inr ⟨hphase, ht⟩)
    · rw [fault_step hp] at h; cases h
      exact ⟨hp, rfl⟩

end Sys2Proof.Proofs
end

section
/-! What every instruction writes, when it raises a fault, when it responds, and when a read stops it (10_state.md R10, R22, R25,
60_exceptions.md R162, R163), and the statements over all instructions (O34 to O37) with that about PUSH's high bits (O23). -/

namespace Sys2Proof.Machine

variable {s t : State}

/-! ### Reads of cells that hold no value -/

/-- A read of a whole file with an empty cell names an empty cell. -/
theorem readAll_empty {α : Type} [Inhabited α] {n : Nat} (f : RegFile) {v : Vector (Option α) n} {j : Fin n}
    (hj : v[j] = none) (k : Vector α n → Result) : ∃ i : Fin n, v[i] = none ∧ readAll f v k = .fault (.noValue f i) := by
  rcases readAll_cases f v k with ⟨x, rfl, -⟩ | hstop
  · simp at hj
  · exact hstop

/-- A read of one cell stops at an empty cell if going on with the cell's value does. -/
theorem readCell_empty {α : Type} {n : Nat} (f : RegFile) {v : Vector (Option α) n} {i : Fin n} {k : α → Result}
    (hk : ∀ x, v[i] = some x → ∃ j : Fin n, v[j] = none ∧ k x = .fault (.noValue f j)) :
    ∃ j : Fin n, v[j] = none ∧ readCell f v i k = .fault (.noValue f j) := by
  cases hi : v[i] with
  | some x => rw [readCell_some hi]; exact hk x hi
  | none => exact ⟨i, hi, readCell_none hi⟩

theorem ne_of_cells {α : Type} {n : Nat} {v : Vector (Option α) n} {i j : Fin n} {x : α} (hj : v[j] = none)
    (hi : v[i] = some x) : j.val ≠ i.val := by
  intro e
  rw [Fin.ext e, hi] at hj
  cases hj

theorem uLoadw_empty {j : Fin 64} (hj : s.blk[j] = none) :
    ∃ i : Fin 64, s.blk[i] = none ∧ exec .uLoadw s = .fault (.noValue .BLK i) := by
  simp only [exec, execULoadw]
  exact readAll_empty .BLK hj _

theorem uWinit_empty {k : Fin 8} (hk : s.h[k] = none) :
    ∃ i : Fin 8, s.h[i] = none ∧ exec .uWinit s = .fault (.noValue .H i) := by
  simp only [exec, execUWinit]
  exact readAll_empty .H hk _

theorem uAccum_emptyH {k : Fin 8} (hk : s.h[k] = none) :
    ∃ i : Fin 8, s.h[i] = none ∧ exec .uAccum s = .fault (.noValue .H i) := by
  simp only [exec, execUAccum]
  exact readAll_empty .H hk _

theorem uAccum_emptyR {k : Fin 8} {h : Vector Word 8} (hh : s.h = held h) (hk : s.r[k] = none) :
    ∃ i : Fin 8, s.r[i] = none ∧ exec .uAccum s = .fault (.noValue .R i) := by
  simp only [exec, execUAccum, hh, readAll_held]
  exact readAll_empty .R hk _

theorem uRound_emptyR {k : Fin 8} (hk : s.r[k] = none) :
    ∃ i : Fin 8, s.r[i] = none ∧ exec .uRound s = .fault (.noValue .R i) := by
  simp only [exec, execURound]
  exact readAll_empty .R hk _

theorem uRound_emptyW {r : Vector Word 8} {j : Fin 64} (hr : s.r = held r) (hj : s.w[j] = none) (hT : j.val = s.t.toNat) :
    exec .uRound s = .fault (.noValue .W j) := by
  obtain rfl : j = ⟨s.t.toNat, s.t.isLt⟩ := Fin.ext hT
  simp only [exec, execURound, hr, readAll_held]
  exact readCell_none hj

theorem rdw_empty {k : BitVec 3} {j : Fin 8} (hdv : s.dv = true) (hj : s.h[j] = none) (hk : j.val = k.toNat) :
    exec (.rdw k) s = .fault (.noValue .H j) := by
  obtain rfl : j = ⟨k.toNat, k.isLt⟩ := Fin.ext hk
  simp only [exec, execRdw, hdv]
  exact readCell_none hj

theorem rdhex_empty {i : BitVec 6} {j : Fin 8} (hdv : s.dv = true) (hj : s.h[j] = none) (hi : j.val = i.toNat / 8) :
    exec (.rdhex i) s = .fault (.noValue .H j) := by
  obtain rfl : j = ⟨(hexWordIndex i).toNat, (hexWordIndex i).isLt⟩ := Fin.ext (hi.trans (hexWordIndex_toNat i).symm)
  simp only [exec, execRdhex, hdv]
  exact readCell_none hj

/-- U_EXPAND stops if one of its four sources is empty: were all four held, cell `j` would be. -/
theorem uExpand_empty (hT : 16 ≤ s.t.toNat) {j : Fin 64} (hj : s.w[j] = none)
    (hsrc : j.val + 16 = s.t.toNat ∨ j.val + 15 = s.t.toNat ∨ j.val + 7 = s.t.toNat ∨ j.val + 2 = s.t.toNat) :
    ∃ i : Fin 64, s.w[i] = none ∧ exec .uExpand s = .fault (.noValue .W i) := by
  simp only [exec, execUExpand, dif_neg (Nat.not_lt.2 hT)]
  refine readCell_empty .W fun w16 h16 => readCell_empty .W fun w15 h15 => readCell_empty .W fun w7 h7 =>
    readCell_empty .W fun w2 h2 => absurd hsrc ?_
  have := ne_of_cells hj h16
  have := ne_of_cells hj h15
  have := ne_of_cells hj h7
  have := ne_of_cells hj h2
  dsimp only at *
  omega

/-! ### Faults -/

theorem ite_ne_fault {p q : Phase} {c : Prop} [Decidable c] (hp : p ≠ .fault) (hq : q ≠ .fault) : (if c then p else q) ≠ .fault := by
  split_ifs <;> assumption

end Sys2Proof.Machine

namespace Sys2Proof.Proofs

open Sys2Proof.Machine

/-- Settles O23: PUSH uses nothing of its operand but the code unit. -/
theorem pushIgnoresHighBits : Obligations.PushIgnoresHighBits := by
  intro cp cp' s h
  have hunit : codeUnit cp = codeUnit cp' := by rw [codeUnit_eq, codeUnit_eq, h]
  show execPush cp s = execPush cp' s
  simp only [execPush, hunit]

/-- Settles O34: `exec_spec` gives each instruction's next state, in which the fields not named are the old ones. -/
theorem onlyNamedWritersWrite : Obligations.OnlyNamedWritersWrite := by
  intro i s t h
  have hspec := exec_spec h
  cases i with
  | init => obtain rfl : t = _ := hspec; simp
  | push cp => rcases hspec with ⟨-, rfl⟩ | ⟨-, -, rfl⟩ | ⟨-, -, rfl⟩ <;> simp
  | final => rcases hspec with ⟨-, rfl⟩ | ⟨-, rfl⟩ <;> simp
  | rdw k => rcases hspec with ⟨-, rfl⟩ | ⟨-, v, rfl⟩ <;> simp
  | rdhex k => rcases hspec with ⟨-, rfl⟩ | ⟨-, v, rfl⟩ <;> simp
  | rdstat => obtain rfl : t = _ := hspec; simp
  | uLoadw => obtain ⟨_, -, rfl⟩ := hspec; simp
  | uExpand => obtain ⟨_, -, rfl⟩ := hspec; simp
  | uWinit => obtain ⟨_, -, rfl⟩ := hspec; simp
  | uRound => obtain ⟨_, rfl⟩ := hspec; simp
  | uAccum => obtain ⟨_, ⟨-, rfl⟩ | ⟨-, rfl⟩ | ⟨-, rfl⟩⟩ := hspec <;> simp
  | uPadlen => obtain rfl : t = _ := hspec; simp

/-- Settles O35: `exec_spec`, with the causes of R162 as the conditions of its fault cases. -/
theorem faultsExactlyOnMisuse : Obligations.FaultsExactlyOnMisuse := by
  intro i s t hp h
  have hspec := exec_spec h
  cases i with
  | init => obtain rfl : t = _ := hspec; simp [hp]
  | push cp =>
    dsimp only
    rw [← eq_maxBits_iff]
    rcases hspec with ⟨ho, rfl⟩ | ⟨ho, hl, rfl⟩ | ⟨ho, hl, rfl⟩
    · exact ⟨iff_of_true rfl (.inl ho), fun _ => rfl⟩
    · exact ⟨iff_of_true rfl (.inr hl), fun _ => rfl⟩
    · have hne := ite_ne_fault (c := s.fill = 63#6) (p := .loadw) (by decide) hp
      exact ⟨iff_of_false hne (by simp [ho, hl]), fun hf => absurd hf hne⟩
  | final =>
    rcases hspec with ⟨ho, rfl⟩ | ⟨ho, rfl⟩
    · exact ⟨iff_of_true rfl ho, fun _ => rfl⟩
    · simp [ho]
  | rdw k | rdhex k =>
    rcases hspec with ⟨hd, rfl⟩ | ⟨hd, v, rfl⟩
    · exact ⟨iff_of_true rfl hd, fun _ => rfl⟩
    · simp [hp, hd]
  | rdstat => obtain rfl : t = _ := hspec; simp [hp]
  | uLoadw => obtain ⟨_, -, rfl⟩ := hspec; simp
  | uExpand =>
    obtain ⟨_, -, rfl⟩ := hspec
    have hne := ite_ne_fault (c := s.t = 63#6) (p := .winit) (by decide) hp
    exact ⟨iff_of_false hne id, fun hf => absurd hf hne⟩
  | uWinit => obtain ⟨_, -, rfl⟩ := hspec; simp
  | uRound =>
    obtain ⟨_, rfl⟩ := hspec
    have hne := ite_ne_fault (c := s.t = 63#6) (p := .accum) (by decide) hp
    exact ⟨iff_of_false hne id, fun hf => absurd hf hne⟩
  | uAccum => obtain ⟨_, ⟨-, rfl⟩ | ⟨-, rfl⟩ | ⟨-, rfl⟩⟩ := hspec <;> simp
  | uPadlen => obtain rfl : t = _ := hspec; simp

/-- Settles O36: RDSTAT always responds, RDW and RDHEX unless they fault, and the other next states keep RESPQ. -/
theorem oneResponsePerRead : Obligations.OneResponsePerRead := by
  intro i s t hp h
  have hspec := exec_spec h
  cases i with
  | init => obtain rfl : t = _ := hspec; simp
  | push cp => rcases hspec with ⟨-, rfl⟩ | ⟨-, -, rfl⟩ | ⟨-, -, rfl⟩ <;> simp
  | final => rcases hspec with ⟨-, rfl⟩ | ⟨-, rfl⟩ <;> simp
  | rdw k | rdhex k =>
    rcases hspec with ⟨-, rfl⟩ | ⟨-, v, rfl⟩
    · simp
    · simp [hp]
  | rdstat => obtain rfl : t = _ := hspec; simp [hp]
  | uLoadw => obtain ⟨_, -, rfl⟩ := hspec; simp
  | uExpand => obtain ⟨_, -, rfl⟩ := hspec; simp
  | uWinit => obtain ⟨_, -, rfl⟩ := hspec; simp
  | uRound => obtain ⟨_, rfl⟩ := hspec; simp
  | uAccum => obtain ⟨_, ⟨-, rfl⟩ | ⟨-, rfl⟩ | ⟨-, rfl⟩⟩ := hspec <;> simp
  | uPadlen => obtain rfl : t = _ := hspec; simp

/-- Settles O37: each rule's first read that meets an empty cell names it. -/
theorem unwrittenReadIsModelFault : Obligations.UnwrittenReadIsModelFault := by
  intro s
  refine ⟨fun j => uLoadw_empty, fun k hk => ⟨uWinit_empty hk, uAccum_emptyH hk, fun hdv => rdw_empty hdv hk ?rdw,
      fun hdv c => rdhex_empty hdv hk ?rdhex⟩,
    fun k hk => ⟨uRound_emptyR hk, fun h hh => uAccum_emptyR (held_of_cells hh) hk⟩,
    fun j hj => ⟨fun hT hsrc => uExpand_empty hT hj hsrc, fun hT hcells => ?round⟩⟩
  case rdw => simp
  case rdhex =>
    rw [BitVec.toNat_ofNat]
    omega
  case round =>
    obtain ⟨r, hr⟩ := held_of_allHeld (allHeld_of_cells hcells)
    exact uRound_emptyW hr hj hT

end Sys2Proof.Proofs
end

section
/-! The engine beside the host and other engines (45_engine.md R145, 60_exceptions.md R171, 20_memory.md R46): appended words and
removed responses before or after a step, and events at one engine of a chip (O44, O45). -/

namespace Sys2Proof.Machine

variable {s t : State}

/-- An enabled step with more words at the tail of CMDQ. -/
theorem step_append_cmdq (he : s.stepEnabled = true) (h : step s = .next t) (ws : List Word) :
    step { s with cmdq := s.cmdq ++ ws } = .next { t with cmdq := t.cmdq ++ ws } := by
  rcases step_spec h with ⟨i, hi, htab, hexec⟩ | ⟨hq, hp, -⟩ | ⟨v, rest, hq, hp, ⟨i, hd, hexec⟩ | ⟨e, hd, rfl⟩⟩ |
    ⟨v, rest, hq, hp, ⟨hd, rfl⟩ | ⟨hd, rfl⟩⟩
  · rw [exec_keeps_cmdq hexec]
    exact (step_busy (s := { s with cmdq := s.cmdq ++ ws }) hi htab).trans (exec_ignores_cmdq hexec _)
  · simp [State.stepEnabled, hq, not_busy_of_idle_or_fault hp] at he
  all_goals have hq' : s.cmdq ++ ws = v :: (rest ++ ws) := by rw [hq, List.cons_append]
  · have hkeep : t.cmdq = rest := exec_keeps_cmdq hexec
    rw [hkeep]
    exact (step_idle_legal (s := { s with cmdq := s.cmdq ++ ws }) hp hq' hd).trans (exec_ignores_cmdq hexec (rest ++ ws))
  · exact step_idle_illegal (s := { s with cmdq := s.cmdq ++ ws }) hp hq' hd
  · exact step_fault_rdstat (s := { s with cmdq := s.cmdq ++ ws }) hp hq' hd
  · exact step_fault_other (s := { s with cmdq := s.cmdq ++ ws }) hp hq' hd

/-- A step with the head of a non-empty RESPQ removed: it appends the same words to the rest. -/
theorem step_removeResponse (h : step s = .next t) (hq : s.respq ≠ []) : step s.removeResponse = .next t.removeResponse := by
  obtain ⟨new, hnew, hstep⟩ := step_responses h
  have htail : t.respq.tail = s.respq.tail ++ new := by rw [hnew, List.tail_append_of_ne_nil hq]
  rw [State.removeResponse, State.removeResponse, htail]
  exact hstep s.respq.tail

/-- An event at an engine of a chip that answers a chip answers a state alone, which takes the engine's place. -/
theorem eventAt_next {chip chip' : Chip} {n : Nat} {e : HostEvent} (hn : chip[n]? = some s)
    (h : chip.eventAt n e = .next chip') : ∃ t, e.apply s = .next t ∧ chip' = chip.set n t := by
  simp only [Chip.eventAt, hn] at h
  cases he : e.apply s with
  | next t => rw [he] at h; cases h; exact ⟨t, rfl, rfl⟩
  | fault c => rw [he] at h; cases h
  | refused c => rw [he] at h; cases h

theorem eventAt_none {chip chip' : Chip} {n : Nat} {e : HostEvent} (hn : chip[n]? = none)
    (h : chip.eventAt n e = .next chip') : chip' = chip := by
  simp only [Chip.eventAt, hn] at h
  cases h
  rfl

end Sys2Proof.Machine

namespace Sys2Proof.Proofs

open Sys2Proof.Machine

/-- Settles O44: the chip changes at the place of the engine only. -/
theorem instancesShareNothing : Obligations.InstancesShareNothing := by
  intro chip chip' n e h
  cases hn : chip[n]? with
  | none =>
    obtain rfl := eventAt_none hn h
    exact ⟨rfl, fun _ _ => rfl, fun s hs => by cases hs⟩
  | some s =>
    obtain ⟨t, he, rfl⟩ := eventAt_next hn h
    refine ⟨List.length_set, fun m hm => List.getElem?_set_ne hm.symm, fun s' hs' => ?_⟩
    cases hs'
    exact ⟨t, he, List.getElem?_set_self (List.getElem?_eq_some_iff.1 hn).1⟩

/-- Settles O45: `step_append_cmdq` with one word, and `step_removeResponse`. -/
theorem hostActionsCommuteWithSteps : Obligations.HostActionsCommuteWithSteps := fun _ _ he h =>
  ⟨fun w => step_append_cmdq he h [w], step_removeResponse h⟩

end Sys2Proof.Proofs
end

section
/-! States that differ only in cells without a value (70_reset_and_hazards.md R181): every rule that answers does not see the
difference, and the statement that runs do not either (O43). -/

namespace Sys2Proof.Machine

variable {s s' t : State} {α : Type} {n : Nat}

/-! ### Register files -/

theorem cellsAgree_loadedSchedule {w w' : Vector (Option Word) 64} (h : cellsAgree w w') (b : Vector Byte 64) :
    cellsAgree (loadedSchedule w b) (loadedSchedule w' b) := by
  intro j hj
  by_cases hlow : j.val < 16
  · simp [loadedSchedule, hlow]
  · rw [loadedSchedule_getElem_of_ge w b j (Nat.not_lt.1 hlow)] at hj ⊢
    rw [loadedSchedule_getElem_of_ge w' b j (Nat.not_lt.1 hlow)]
    exact h j hj

theorem cellsAgree_finalBlock {blk blk' : Vector (Option Byte) 64} (h : cellsAgree blk blk') (f : BitVec 6) (l : BitVec 64) :
    cellsAgree (finalBlock blk f l) (finalBlock blk' f l) := by
  intro j hj
  rw [finalBlock_getElem] at hj ⊢
  rw [finalBlock_getElem]
  by_cases hlow : j.val < f.toNat
  · rw [if_pos hlow] at hj ⊢
    rw [if_pos hlow]
    exact h j hj
  · rw [if_neg hlow, if_neg hlow]

/-! ### States -/

/-- The same control state and streams with other register files. -/
def State.withFiles (s : State) (h r : Vector (Option Word) 8) (w : Vector (Option Word) 64) (blk : Vector (Option Byte) 64) :
    State := { s with h := h, r := r, w := w, blk := blk }

theorem refines_withFiles {h r : Vector (Option Word) 8} {w : Vector (Option Word) 64} {blk : Vector (Option Byte) 64}
    (hh : cellsAgree s.h h) (hr : cellsAgree s.r r) (hw : cellsAgree s.w w) (hb : cellsAgree s.blk blk) :
    s.Refines (s.withFiles h r w blk) := ⟨hh, hr, hw, hb, rfl, rfl, rfl, rfl, rfl, rfl, rfl, rfl, rfl⟩

theorem refines_eq_withFiles (h : s.Refines s') : s' = s.withFiles s'.h s'.r s'.w s'.blk := by
  obtain ⟨-, -, -, -, hlen, hphase, ht, hfin, hopen, hdv, herr, hcmdq, hrespq⟩ := h
  cases s'
  simp only at hlen hphase ht hfin hopen hdv herr hcmdq hrespq
  subst hlen hphase ht hfin hopen hdv herr hcmdq hrespq
  rfl

theorem refines_cmdq (h : s.Refines s') (q : List Word) : State.Refines { s with cmdq := q } { s' with cmdq := q } :=
  { h with cmdq := rfl }

section
variable {h r : Vector (Option Word) 8} {w : Vector (Option Word) 64} {blk : Vector (Option Byte) 64}
  (hh : cellsAgree s.h h) (hr : cellsAgree s.r r) (hw : cellsAgree s.w w) (hb : cellsAgree s.blk blk)
include hh hr hw hb

/-- A rule that answers reads only cells that hold values, and finds the same values in the other files. -/
theorem exec_withFiles {i : Instr} (he : exec i s = .next t) :
    ∃ h' r' w' blk', exec i (s.withFiles h r w blk) = .next (t.withFiles h' r' w' blk') ∧
      cellsAgree t.h h' ∧ cellsAgree t.r r' ∧ cellsAgree t.w w' ∧ cellsAgree t.blk blk' := by
  cases i with
  | init =>
    rw [exec_init] at he; cases he
    exact ⟨held h0Table, r, w, blk, rfl, cellsAgree_refl _, hr, hw, hb⟩
  | push cp =>
    rcases Bool.eq_false_or_eq_true s.opened with ho | ho
    · by_cases hl : s.len = maxBits
      · rw [exec_push_full cp ho hl] at he; cases he
        exact ⟨h, r, w, blk, exec_push_full (s := s.withFiles h r w blk) cp ho hl, hh, hr, hw, hb⟩
      · rw [exec_push_open cp ho hl] at he; cases he
        exact ⟨h, r, w, _, exec_push_open (s := s.withFiles h r w blk) cp ho hl, hh, hr, hw,
          cellsAgree_set hb s.fill.toNat s.fill.isLt _⟩
    · rw [exec_push_closed cp ho] at he; cases he
      exact ⟨h, r, w, blk, exec_push_closed (s := s.withFiles h r w blk) cp ho, hh, hr, hw, hb⟩
  | final =>
    rcases Bool.eq_false_or_eq_true s.opened with ho | ho
    · rw [exec_final_open ho] at he; cases he
      exact ⟨h, r, w, _, exec_final_open (s := s.withFiles h r w blk) ho, hh, hr, hw, cellsAgree_finalBlock hb s.fill s.len⟩
    · rw [exec_final_closed ho] at he; cases he
      exact ⟨h, r, w, blk, exec_final_closed (s := s.withFiles h r w blk) ho, hh, hr, hw, hb⟩
  | rdw k =>
    rcases Bool.eq_false_or_eq_true s.dv with hd | hd
    · obtain ⟨v, hv, rfl⟩ := (exec_rdw_valid k hd).1 he
      exact ⟨h, r, w, blk, (exec_rdw_valid (s := s.withFiles h r w blk) k hd).2 ⟨v, cellsAgree_some hh hv, rfl⟩, hh, hr, hw, hb⟩
    · rw [exec_rdw_invalid k hd] at he; cases he
      exact ⟨h, r, w, blk, exec_rdw_invalid (s := s.withFiles h r w blk) k hd, hh, hr, hw, hb⟩
  | rdhex i =>
    rcases Bool.eq_false_or_eq_true s.dv with hd | hd
    · obtain ⟨v, hv, rfl⟩ := (exec_rdhex_valid i hd).1 he
      exact ⟨h, r, w, blk, (exec_rdhex_valid (s := s.withFiles h r w blk) i hd).2 ⟨v, cellsAgree_some hh hv, rfl⟩, hh, hr, hw, hb⟩
    · rw [exec_rdhex_invalid i hd] at he; cases he
      exact ⟨h, r, w, blk, exec_rdhex_invalid (s := s.withFiles h r w blk) i hd, hh, hr, hw, hb⟩
  | rdstat =>
    rw [exec_rdstat] at he; cases he
    exact ⟨h, r, w, blk, rfl, hh, hr, hw, hb⟩
  | uLoadw =>
    obtain ⟨b, hblk, rfl⟩ := exec_uLoadw.1 he
    rw [hblk] at hb
    exact ⟨h, r, _, blk, exec_uLoadw_held (s := s.withFiles h r w blk) (cellsAgree_held hb), hh, hr,
      cellsAgree_loadedSchedule hw b, hblk ▸ hb⟩
  | uExpand =>
    obtain ⟨h16, a, b, c, d, ha, hb', hc, hd, rfl⟩ := exec_uExpand.1 he
    exact ⟨h, r, _, blk, exec_uExpand.2 ⟨h16, a, b, c, d, cellsAgree_some hw ha, cellsAgree_some hw hb', cellsAgree_some hw hc,
      cellsAgree_some hw hd, rfl⟩, hh, hr, cellsAgree_set hw s.t.toNat s.t.isLt _, hb⟩
  | uWinit =>
    obtain ⟨v, hv, rfl⟩ := exec_uWinit.1 he
    rw [hv] at hh
    exact ⟨h, held v, w, blk, exec_uWinit_held (s := s.withFiles h r w blk) (cellsAgree_held hh), hv ▸ hh, cellsAgree_refl _, hw, hb⟩
  | uRound =>
    obtain ⟨v, x, hv, hx, rfl⟩ := exec_uRound.1 he
    rw [hv] at hr
    exact ⟨h, _, w, blk, exec_uRound_held (s := s.withFiles h r w blk) (cellsAgree_held hr) (cellsAgree_some hw hx), hh,
      cellsAgree_refl _, hw, hb⟩
  | uAccum =>
    obtain ⟨v, x, hv, hx, hnext⟩ := exec_uAccum.1 he
    rw [hv] at hh
    rw [hx] at hr
    have hv' : (s.withFiles h r w blk).h = held v := cellsAgree_held hh
    have hx' : (s.withFiles h r w blk).r = held x := cellsAgree_held hr
    rw [← hx] at hr
    refine ⟨held (accumulate v x), r, w, blk, ?_⟩
    rcases hnext with ⟨hf, rfl⟩ | ⟨hf, rfl⟩ | ⟨hf, rfl⟩
    · exact ⟨exec_uAccum_inside hv' hx' hf, cellsAgree_refl _, hr, hw, hb⟩
    · exact ⟨exec_uAccum_lengthPending hv' hx' hf, cellsAgree_refl _, hr, hw, hb⟩
    · exact ⟨exec_uAccum_last hv' hx' hf, cellsAgree_refl _, hr, hw, hb⟩
  | uPadlen =>
    rw [exec_uPadlen] at he; cases he
    exact ⟨h, r, w, padlenBlock s.len, rfl, hh, hr, hw, cellsAgree_refl _⟩

end

theorem exec_refines {i : Instr} (hs : s.Refines s') (h : exec i s = .next t) : ∃ t', exec i s' = .next t' ∧ t.Refines t' := by
  obtain ⟨h', r', w', blk', he, hh, hr, hw, hb⟩ := exec_withFiles hs.h hs.r hs.w hs.blk h
  rw [← refines_eq_withFiles hs] at he
  exact ⟨_, he, refines_withFiles hh hr hw hb⟩

theorem raiseFault_refines (hs : s.Refines s') (c : ErrCode) : (s.raiseFault c).Refines (s'.raiseFault c) := by
  rw [refines_eq_withFiles hs]
  exact refines_withFiles hs.h hs.r hs.w hs.blk

theorem step_refines (hs : s.Refines s') (h : step s = .next t) : ∃ t', step s' = .next t' ∧ t.Refines t' := by
  rcases step_spec h with ⟨i, hi, htab, hexec⟩ | ⟨hq, hp, rfl⟩ | ⟨w, rest, hq, hp, ⟨i, hd, hexec⟩ | ⟨e, hd, rfl⟩⟩ |
    ⟨w, rest, hq, hp, ⟨hd, rfl⟩ | ⟨hd, rfl⟩⟩
  · rw [← hs.phase] at hi
    rw [← hs.phase, ← hs.t] at htab
    rw [step_busy hi htab]
    exact exec_refines hs hexec
  all_goals rw [← hs.cmdq] at hq
  · rw [← hs.phase] at hp
    refine ⟨s', ?_, hs⟩
    rcases hp with hp | hp
    · exact step_idle_nil hp hq
    · exact step_fault_nil hp hq
  all_goals rw [← hs.phase] at hp
  · rw [step_idle_legal hp hq hd]
    exact exec_refines (refines_cmdq hs rest) hexec
  · exact ⟨_, step_idle_illegal hp hq hd, raiseFault_refines (refines_cmdq hs rest) _⟩
  · rw [step_fault_rdstat hp hq hd]
    exact exec_refines (refines_cmdq hs rest) exec_rdstat
  · exact ⟨_, step_fault_other hp hq hd, refines_cmdq hs rest⟩

end Sys2Proof.Machine

namespace Sys2Proof.Proofs

open Sys2Proof.Machine

/-- Settles O43, by induction on the number of steps: one step is `step_refines`. -/
theorem unwrittenCellsUnobservable : Obligations.UnwrittenCellsUnobservable := by
  intro n
  induction n with
  | zero =>
    intro s s' t hs h
    cases h
    exact ⟨s', rfl, hs⟩
  | succ n ih =>
    intro s s' t hs h
    obtain ⟨u, hu, hrun⟩ := run_succ_inv h
    obtain ⟨u', hu', hrefines⟩ := step_refines hs hu
    rw [run_succ_next hu']
    exact ih u u' t hrefines hrun

end Sys2Proof.Proofs
end

section
/-! What a legal word is made of (30_encoding.md R57 to R59, R63), and the statements about words and their meanings (O8 to
O12). -/

namespace Sys2Proof

/-! ### Decoded words are encodings -/

theorem append_toNat {n k : Nat} (op : BitVec n) (x : BitVec k) : (op ++ x).toNat = 2 ^ k * op.toNat + x.toNat := by
  rw [BitVec.toNat_append, Nat.shiftLeft_eq, Nat.mul_comm, ← Nat.two_pow_add_eq_or_of_lt x.isLt]

/-- A word whose high bits are `op` is `op` and its own low bits. -/
theorem append_extractLsb'_eq {n k : Nat} {op : BitVec n} {w : BitVec (n + k)} (h : w.toNat / 2 ^ k = op.toNat) :
    op ++ w.extractLsb' 0 k = w := by
  apply BitVec.eq_of_toNat_eq
  rw [append_toNat, BitVec.extractLsb'_toNat, Nat.shiftRight_zero, ← h, Nat.div_add_mod]

theorem encode_of_decode {w : Word} {i : Instr} (h : decode w = .ok i) : encode i = .command w := by
  rw [decode_cases] at h
  split_ifs at h with hinit hpush hfinal hrdw hrdhex hrdstat <;> cases h
  · exact congrArg Encoding.command (BitVec.eq_of_toNat_eq hinit.symm)
  · exact congrArg Encoding.command (append_extractLsb'_eq (n := 8) (k := 24) hpush)
  · exact congrArg Encoding.command (BitVec.eq_of_toNat_eq hfinal.symm)
  · exact congrArg Encoding.command (append_extractLsb'_eq (n := 29) (k := 3) hrdw)
  · exact congrArg Encoding.command (append_extractLsb'_eq (n := 26) (k := 6) hrdhex)
  · exact congrArg Encoding.command (BitVec.eq_of_toNat_eq hrdstat.symm)

theorem phaseCode_phaseOfCode (c : BitVec 3) : phaseCode (phaseOfCode c) = c := by revert c; decide

theorem encode_uop {p : Phase} {i : Instr} (h : uopOf p = some i) : encode i = .phase (phaseCode p) := by
  cases p <;> cases h <;> rfl

theorem decode_of_decodeEncoding {w : Word} {i : Instr} (h : decodeEncoding (.command w) = some i) : decode w = .ok i := by
  cases hd : decode w with
  | ok j =>
    rw [decodeEncoding_command hd] at h
    cases h
    rfl
  | error e => simp [decodeEncoding, hd, Except.toOption] at h

/-! ### The rows of the opcode map -/

/-- Each row fixes all of `op`, so a word it covers has the row's `op`. -/
theorem opField_of_covers {r : OpRow} {w : Word} (hr : r ∈ opRows) (hw : r.covers w = true) :
    opField w = opField r.pattern := by
  have hmask : ∀ r ∈ opRows, opField r.mask = BitVec.allOnes 4 := by decide
  rw [← (covers_iff r w).1 hw]
  show opField w = (w &&& r.mask).extractLsb' 28 4
  rw [BitVec.extractLsb'_and, show r.mask.extractLsb' 28 4 = BitVec.allOnes 4 from hmask r hr, BitVec.and_allOnes]
  rfl

/-! ### The assembler's words -/

theorem rdwWord_eq {k : Nat} (h : k < 8) : rdwWord k = 0x08000000#29 ++ BitVec.ofNat 3 k := by
  apply BitVec.eq_of_toNat_eq
  rw [append_toNat, rdwWord, BitVec.toNat_add, BitVec.toNat_ofNat, BitVec.toNat_ofNat, BitVec.toNat_ofNat, BitVec.toNat_ofNat]
  omega

theorem rdhexWord_eq {i : Nat} (h : i < 64) : rdhexWord i = 0x1400000#26 ++ BitVec.ofNat 6 i := by
  apply BitVec.eq_of_toNat_eq
  rw [append_toNat, rdhexWord, BitVec.toNat_add, BitVec.toNat_ofNat, BitVec.toNat_ofNat, BitVec.toNat_ofNat, BitVec.toNat_ofNat]
  omega

theorem assemble_of_wellFormed {l : AsmLine} (h : l.wellFormed = true) : l.assemble = some l.expand := if_pos h

theorem assemble_of_not_wellFormed {l : AsmLine} (h : l.wellFormed = false) : l.assemble = none := by
  simp [AsmLine.assemble, h]

end Sys2Proof

namespace Sys2Proof.Proofs

/-- Settles O8: `encode_of_decode` for the commands, `encode_uop` for the phase codes. -/
theorem encodeDecodeRoundTrip : Obligations.EncodeDecodeRoundTrip := by
  intro e i h
  cases e with
  | command w => exact encode_of_decode (decode_of_decodeEncoding h)
  | phase p => rw [encode_uop h, phaseCode_phaseOfCode]

/-- Settles O9: the rows of a word have its `op`, and no two rows have the same. -/
theorem opcodeRowsDisjoint : Obligations.OpcodeRowsDisjoint := by
  have hdistinct : ∀ r ∈ opRows, ∀ r' ∈ opRows, opField r.pattern = opField r'.pattern → r.pattern = r'.pattern := by decide
  intro w r r' hr hr' hw hw'
  exact hdistinct r hr r' hr' ((opField_of_covers hr hw).symm.trans (opField_of_covers hr' hw'))

/-- Settles O10: the negation of the six conditions of `decode_cases`, sorted by `op`. -/
theorem illegalWordsCharacterised : Obligations.IllegalWordsCharacterised := by
  intro w
  have hw := w.isLt
  rw [decode_cases]
  split_ifs with hinit hpush hfinal hrdw hrdhex hrdstat
  case neg => exact iff_of_true ⟨_, rfl⟩ (by dsimp only; omega)
  all_goals exact iff_of_false (by rintro ⟨e, he⟩; cases he) (by dsimp only; omega)

/-- Settles O11: the decoder run on each word. -/
theorem sampleWordsDecode : Obligations.SampleWordsDecode := by
  unfold Obligations.SampleWordsDecode
  decide

/-- Settles O12: each word is the encoder's, which decodes to its instruction; `wellFormed` is the range check. -/
theorem assemblerLinesDecode : Obligations.AssemblerLinesDecode := by
  refine ⟨fun cp h => ?push, fun cp h => ?pushOut, fun k h => ?rdw, fun k h => ?rdwOut, fun i h => ?rdhex, fun i h => ?rdhexOut,
    fun w h => ?word, fun w h => ?wordOut, ⟨_, assemble_of_wellFormed rfl, decode_init_word⟩,
    ⟨_, assemble_of_wellFormed rfl, decode_final_word⟩, ⟨_, assemble_of_wellFormed rfl, decode_rdstat_word⟩⟩
  case push =>
    exact ⟨_, assemble_of_wellFormed (decide_eq_true h), by rw [pushWord_eq h, decode_push_word]⟩
  case rdw =>
    exact ⟨_, assemble_of_wellFormed (decide_eq_true h), by rw [rdwWord_eq h, decode_rdw_word]⟩
  case rdhex =>
    exact ⟨_, assemble_of_wellFormed (decide_eq_true h), by rw [rdhexWord_eq h, decode_rdhex_word]⟩
  case word =>
    exact ⟨_, assemble_of_wellFormed (decide_eq_true h), by rw [BitVec.toNat_ofNat, Nat.mod_eq_of_lt h]⟩
  all_goals exact assemble_of_not_wellFormed (decide_eq_false (Nat.not_lt.2 h))

end Sys2Proof.Proofs
end

section
/-! The functions on Words bit by bit and as sums (40_word_functions.md R71, R72, R77, R78), the constant tables (20_memory.md
R33, R34), and the statements about them (O1, O3, O4, O6). -/

namespace Sys2Proof.Machine

variable (x y z : Word) {n j : Nat}

/-! ### Bits -/

theorem not32_getLsbD (hj : j < 32) : (not32 x).getLsbD j = !x.getLsbD j := by
  simp [not32, hj]

theorem rotr_xor (hn : n < 32) : rotr (x ^^^ y) n = rotr x n ^^^ rotr y n := by
  apply BitVec.eq_of_getLsbD_eq
  intro j hj
  simp [rotr_getLsbD _ hn hj]

theorem rotr_and (hn : n < 32) : rotr (x &&& y) n = rotr x n &&& rotr y n := by
  apply BitVec.eq_of_getLsbD_eq
  intro j hj
  simp [rotr_getLsbD _ hn hj]

theorem rotr_not32 (hn : n < 32) : rotr (not32 x) n = not32 (rotr x n) := by
  apply BitVec.eq_of_getLsbD_eq
  intro j hj
  rw [rotr_getLsbD _ hn hj, not32_getLsbD _ (Nat.mod_lt _ (by decide)), not32_getLsbD _ hj, rotr_getLsbD _ hn hj]

/-- Rotating all the way round. -/
theorem rotr_rotr_complement (h1 : 1 ≤ n) (hn : n ≤ 31) : rotr (rotr x n) (32 - n) = x := by
  apply BitVec.eq_of_getLsbD_eq
  intro j hj
  rw [rotr_getLsbD _ (by omega) hj, rotr_getLsbD _ (by omega) (Nat.mod_lt _ (by decide))]
  congr 1
  omega

theorem ch_getLsbD (hj : j < 32) :
    (ch x y z).getLsbD j = if x.getLsbD j then y.getLsbD j else z.getLsbD j := by
  rw [ch, BitVec.getLsbD_xor, BitVec.getLsbD_and, BitVec.getLsbD_and, not32_getLsbD x hj]
  cases x.getLsbD j <;> simp

theorem maj_getLsbD (j : Nat) :
    (maj x y z).getLsbD j = decide (2 ≤ (x.getLsbD j).toNat + (y.getLsbD j).toNat + (z.getLsbD j).toNat) := by
  rw [maj, BitVec.getLsbD_xor, BitVec.getLsbD_xor, BitVec.getLsbD_and, BitVec.getLsbD_and, BitVec.getLsbD_and]
  cases x.getLsbD j <;> cases y.getLsbD j <;> cases z.getLsbD j <;> rfl

/-! ### Sums -/

/-- R71: the integer sum reduced once. -/
theorem add32_toNat : (add32 x y).toNat = (x.toNat + y.toNat) % 2 ^ 32 := BitVec.toNat_add x y

/-! ### Roots of primes -/

/-- The integer part of the `e`-th root of `p`, for roots up to 16. -/
def integerRoot (e p : Nat) : Nat := (List.range 16).countP fun c => (c + 1) ^ e ≤ p

/-- The number with the integer part of the `e`-th root of `p` before the 32 fraction bits of `x`. -/
def rootWithFraction (e p : Nat) (x : Word) : Nat := integerRoot e p * 2 ^ 32 + x.toNat

theorem rootWithFraction_mod (e p : Nat) : x.toNat = rootWithFraction e p x % 2 ^ 32 := by
  have := x.isLt
  unfold rootWithFraction
  omega

end Sys2Proof.Machine

namespace Sys2Proof.Proofs

open Sys2Proof.Machine

/-- Settles O1: each law compares the two words bit by bit with `rotr_getLsbD`. -/
theorem rotateRightMovesBits : Obligations.RotateRightMovesBits := fun x y n h1 hn =>
  have hlt : n < 32 := Nat.lt_succ_of_le hn
  ⟨fun _ hj => rotr_getLsbD x hlt hj, rotr_xor x y hlt, rotr_and x y hlt, rotr_not32 x hlt, rotr_rotr_complement x h1 hn⟩

/-- Settles O4: `ch_getLsbD` and `maj_getLsbD`; above bit 31 every bit is 0. -/
theorem chooseAndMajorityBits : Obligations.ChooseAndMajorityBits := by
  intro x y z j
  refine ⟨?_, maj_getLsbD x y z j⟩
  by_cases hj : j < 32
  · exact ch_getLsbD x y z hj
  · simp [BitVec.getLsbD_of_ge _ j (Nat.not_lt.1 hj)]

/-- Settles O3: each sum is a nest of `add32`, whose inner reductions fall away. -/
theorem sumsWrapOnce : Obligations.SumsWrapOnce := by
  refine ⟨add32_toNat, fun a b c d => ?expand, fun r k w => ?temp1, fun r => add32_toNat _ _⟩
  case expand => simp only [expandWord, add32_toNat, Nat.mod_add_mod]
  case temp1 => simp only [temp1, add32_toNat, Nat.mod_add_mod]

/-- Settles O6: the root is its integer part with the constant as fraction bits; the bounds are computed for each prime. -/
theorem constantsAreRootFractions : Obligations.ConstantsAreRootFractions := by
  unfold Obligations.ConstantsAreRootFractions
  intro primes
  have hH : ∀ k : Fin 8, rootWithFraction 2 (primes.getD k 0) h0Table[k] ^ 2 ≤ primes.getD k 0 * 2 ^ 64 ∧
      primes.getD k 0 * 2 ^ 64 < (rootWithFraction 2 (primes.getD k 0) h0Table[k] + 1) ^ 2 := by decide
  have hK : ∀ i : Fin 64, rootWithFraction 3 (primes.getD i 0) kTable[i] ^ 3 ≤ primes.getD i 0 * 2 ^ 96 ∧
      primes.getD i 0 * 2 ^ 96 < (rootWithFraction 3 (primes.getD i 0) kTable[i] + 1) ^ 3 := by decide
  exact ⟨fun k => ⟨_, (hH k).1, (hH k).2, rootWithFraction_mod _ _ _⟩, fun i => ⟨_, (hK i).1, (hK i).2, rootWithFraction_mod _ _ _⟩⟩

end Sys2Proof.Proofs
end

section
/-! The padded message as bits and as blocks, and the rendered digest (41_preprocessor.md R93, R94, 44_accumulator.md R134), with
the statements about them (O54 to O56). -/

namespace Sys2Proof.Machine

/-! ### Bits of bytes -/

/-- Counting through `n` rows of `k` is counting to `n * k`. -/
theorem flatMap_range_rows {α : Type} (f : Nat → α) (n k : Nat) :
    ((List.range n).flatMap fun i => (List.range k).map fun j => f (k * i + j)) = (List.range (k * n)).map f := by
  induction n with
  | zero => simp
  | succ n ih => simp [List.range_succ, Nat.mul_succ, List.range_add, ih, Function.comp_def]

/-- Bit `j` of byte `i` of the length field, both counted from the most significant. -/
theorem lenByte_getLsbD (len : BitVec 64) {i j : Nat} (hi : i < 8) (hj : j < 8) :
    (lenByte len i).getLsbD (7 - j) = len.getLsbD (63 - (8 * i + j)) := by
  have hlow : 7 - j < 8 := by omega
  have hbit : 8 * (7 - i) + (7 - j) = 63 - (8 * i + j) := by omega
  simp [lenByte, hlow, hbit]

theorem lengthBytes_bits (l : Nat) : (lengthBytes l).flatMap byteBits = lengthBits l := by
  rw [lengthBytes, lengthBits, List.flatMap_map, ← flatMap_range_rows _ 8 8]
  refine List.flatMap_congr fun i hi => List.map_congr_left fun j hj => ?_
  exact lenByte_getLsbD _ (List.mem_range.1 hi) (List.mem_range.1 hj)

theorem marker_bits : byteBits 0x80#8 = true :: List.replicate 7 false := by decide

/-- The zeros of the document are the seven after the 1 in its byte and the zero bytes. -/
theorem padZeroBits_eq (n : Nat) : padZeroBits (8 * n) = 7 + 8 * padZeroBytes n := by
  unfold padZeroBits padZeroBytes
  omega

theorem padBytes_bits (m : List Byte) : (padBytes m).flatMap byteBits = padBits m := by
  simp only [padBytes, padBits, messageBits, List.flatMap_append, List.flatMap_cons, marker_bits, replicate_zero_bits,
    lengthBytes_bits, padZeroBits_eq, List.replicate_add, List.cons_append, List.append_assoc]

/-! ### Length -/

theorem padBytes_length (m : List Byte) : (padBytes m).length = 64 * blockCount m.length := by
  simp only [padBytes, lengthBytes, List.length_append, List.length_cons, List.length_replicate, List.length_map,
    List.length_range, padZeroBytes, blockCount]
  omega

theorem blockCount_eq (n : Nat) : blockCount n = n / 64 + if n % 64 ≤ 55 then 1 else 2 := by
  unfold blockCount
  split_ifs <;> omega

/-! ### Characters -/

theorem hexChar_range (nib : BitVec 4) :
    0x30 ≤ (hexChar nib).toNat ∧ (hexChar nib).toNat ≤ 0x39 ∨ 0x61 ≤ (hexChar nib).toNat ∧ (hexChar nib).toNat ≤ 0x66 := by
  revert nib; decide

end Sys2Proof.Machine

namespace Sys2Proof.Proofs

open Sys2Proof.Machine

/-- Settles O54: `padBytes_bits`, and the count of zeros by arithmetic modulo 512. -/
theorem paddingBytesAreTheBits : Obligations.PaddingBytesAreTheBits := by
  intro m _
  refine ⟨padBytes_bits m, ?congruent, fun z hz => ?least⟩ <;> unfold padZeroBits
  case congruent => omega
  case least => omega

/-- Settles O55: the forms of the block count by arithmetic modulo 64. -/
theorem paddedLengthIsWholeBlocks : Obligations.PaddedLengthIsWholeBlocks := by
  intro m
  refine ⟨padBytes_length m, Nat.le_add_left 1 _, ?ceiling, blockCount_eq m.length⟩
  case ceiling =>
    unfold blockCount
    omega

/-- Settles O56: there is one character for each of 64 positions, and each is a `hexChar`. -/
theorem digestRendersAsLowercaseHex : Obligations.DigestRendersAsLowercaseHex := by
  intro m
  refine ⟨by simp [computeDigest], fun c hc => ?_⟩
  obtain ⟨i, -, rfl⟩ := List.mem_map.1 hc
  exact hexChar_range _

end Sys2Proof.Proofs
end

section
/-! Whole blocks (42_scheduler.md R112, 43_round.md R123, 44_accumulator.md R132): the runs through PH_EXPAND and PH_ROUND by
induction on the steps left, one block, and the statements about them (O46 to O49). -/

namespace Sys2Proof.Machine

variable {s t : State} {b : Vector Byte 64} {v : Vector Word 8} {w : Vector Word 64}

/-! ### The reference schedule and rounds -/

theorem sched_of_lt (b : Vector Byte 64) {i : Nat} (h : i < 16) : (sched b)[i] = blockWord b ⟨i, h⟩ := by
  rw [sched_getElem b i (by omega) 0 (by decide) h, schedList, List.getD_eq_getElem _ _ (by simpa using h),
    List.getElem_ofFn]

/-- R112's recurrence. -/
theorem sched_of_ge (b : Vector Byte 64) {i : Nat} (h16 : 16 ≤ i) (h : i < 64) :
    (sched b)[i] = expandWord (sched b)[i - 16] (sched b)[i - 15] (sched b)[i - 7] (sched b)[i - 2] := by
  obtain ⟨n, rfl⟩ : ∃ n, i = 16 + n := ⟨i - 16, by omega⟩
  have word (k : Nat) (hk : k < 16 + n) := sched_getElem b k (by omega) n (by omega) hk
  rw [sched_getElem b (16 + n) h (n + 1) (by omega) (by omega), schedList_getD_last, word _ (by omega), word _ (by omega),
    word _ (by omega), word _ (by omega)]
  congr 2 <;> omega

theorem kTable_getD (t : BitVec 6) : kTable.toList.getD t.toNat 0#32 = roundConstant t := by
  have ht : t.toNat < kTable.toList.length := by simpa using t.isLt
  rw [List.getD_eq_getElem _ _ ht]
  simp [roundConstant]

theorem roundsUpTo_succ (v : Vector Word 8) (w : Vector Word 64) (t : BitVec 6) :
    roundsUpTo v w (t.toNat + 1) = roundUpdate (roundsUpTo v w t.toNat) (roundConstant t) (w[t.toNat]'t.isLt) := by
  have ht : t.toNat < w.toList.length := by simpa using t.isLt
  rw [roundsUpTo, kTable_getD, List.getD_eq_getElem _ _ ht]
  simp

/-- One block is the sum of the old digest and the rounds (44_accumulator.md R131, R132). -/
theorem accumulate_rounds (v : Vector Word 8) (b : Vector Byte 64) :
    accumulate v (rounds v (sched b)) = compress v b := rfl

/-! ### PH_LOADW and PH_EXPAND -/

theorem step_loadw (hp : s.phase = .loadw) (ht : s.t = 0#6 ∨ s.t = 63#6) (hb : s.blk = held b) :
    step s = .next { s with w := loadedSchedule s.w b, t := 16#6, phase := .expand } := by
  rw [step_busy (i := .uLoadw) (by rw [hp]; rfl) (inTransitionTable_loadw hp ht), exec_uLoadw_held hb]

/-- The cells of W below `k` hold the schedule of `b`. -/
def holdsSchedule (w : Vector (Option Word) 64) (b : Vector Byte 64) (k : Nat) : Prop :=
  ∀ i : Nat, i < k → ∀ h : i < 64, w[i] = some (sched b)[i]

theorem holdsSchedule_loadedSchedule (w : Vector (Option Word) 64) (b : Vector Byte 64) :
    holdsSchedule (loadedSchedule w b) b 16 := by
  intro i hi h
  rw [sched_of_lt b hi]
  simp [loadedSchedule, hi]

theorem holdsSchedule_set {w : Vector (Option Word) 64} {k : Nat} (hw : holdsSchedule w b k) (hk : k < 64) :
    holdsSchedule (w.set k (some (sched b)[k]) hk) b (k + 1) := by
  intro i hi h
  by_cases hki : k = i
  · subst hki; simp
  · rw [Vector.getElem_set_ne hk h hki]
    exact hw i (by omega) h

theorem held_of_holdsSchedule {w : Vector (Option Word) 64} (hw : holdsSchedule w b 64) : w = held (sched b) :=
  held_of_cells fun i => hw i i.isLt i.isLt

/-- U_EXPAND on a schedule complete below T adds the schedule's word T. -/
theorem step_expand (hp : s.phase = .expand) (hT : 16 ≤ s.t.toNat) (hw : holdsSchedule s.w b s.t.toNat) :
    step s = .next { s with
      w := s.w.set s.t.toNat (some ((sched b)[s.t.toNat]'s.t.isLt)) s.t.isLt
      t := if s.t = 63#6 then s.t else s.t + 1#6
      phase := if s.t = 63#6 then .winit else s.phase } := by
  have hlt := s.t.isLt
  rw [step_busy (i := .uExpand) (by rw [hp]; rfl) (inTransitionTable_expand hp hT), sched_of_ge b hT s.t.isLt]
  exact exec_uExpand.2 ⟨hT, _, _, _, _, hw _ (by omega) (by omega), hw _ (by omega) (by omega), hw _ (by omega) (by omega),
    hw _ (by omega) (by omega), rfl⟩

/-- The rest of PH_EXPAND, from a schedule complete below T. -/
theorem run_expand (k : Nat) (hp : s.phase = .expand) (hT : 16 ≤ s.t.toNat) (hk : s.t.toNat + k = 63)
    (hw : holdsSchedule s.w b s.t.toNat) :
    core.run (k + 1) s = .next { s with w := held (sched b), t := 63#6, phase := .winit } := by
  induction k generalizing s with
  | zero =>
    have hlast : s.t = 63#6 := (eq_63_iff s.t).2 hk
    have hfull : holdsSchedule (s.w.set s.t.toNat (some ((sched b)[s.t.toNat]'s.t.isLt)) s.t.isLt) b 64 := by
      have hset := holdsSchedule_set hw s.t.isLt
      intro i hi
      exact hset i (by omega)
    refine run_one.trans ((step_expand hp hT hw).trans ?_)
    rw [held_of_holdsSchedule hfull, if_pos hlast, if_pos hlast, hlast]
    rfl
  | succ k ih =>
    have hlast : s.t.toNat ≠ 63 := by omega
    have hnext := t_add_one_toNat hlast
    have hne : s.t ≠ 63#6 := fun e => hlast ((eq_63_iff s.t).1 e)
    have hstep := step_expand hp hT hw
    rw [if_neg hne, if_neg hne] at hstep
    rw [run_succ_next hstep]
    refine ih hp ?_ ?_ ?_
    · show 16 ≤ (s.t + 1#6).toNat
      omega
    · show (s.t + 1#6).toNat + k = 63
      omega
    · show holdsSchedule _ b (s.t + 1#6).toNat
      rw [hnext]
      exact holdsSchedule_set hw s.t.isLt

/-- R112: the 49 micro-operations that compute the schedule. -/
theorem run_schedule (hp : s.phase = .loadw) (ht : s.t = 0#6 ∨ s.t = 63#6) (hb : s.blk = held b) :
    core.run 49 s = .next { s with w := held (sched b), t := 63#6, phase := .winit } := by
  rw [run_succ_next (step_loadw hp ht hb)]
  exact run_expand 47 rfl le_rfl rfl (holdsSchedule_loadedSchedule s.w b)

/-! ### PH_WINIT and PH_ROUND -/

theorem step_winit (hp : s.phase = .winit) (ht : s.t = 63#6) (hh : s.h = held v) :
    step s = .next { s with r := held v, t := 0#6, phase := .round } := by
  rw [step_busy (i := .uWinit) (by rw [hp]; rfl) (inTransitionTable_last (.inl hp) ht), exec_uWinit_held hh]

/-- U_ROUND after T rounds is round T. -/
theorem step_round (hp : s.phase = .round) (hw : s.w = held w) (hr : s.r = held (roundsUpTo v w s.t.toNat)) :
    step s = .next { s with
      r := held (roundsUpTo v w (s.t.toNat + 1))
      t := if s.t = 63#6 then s.t else s.t + 1#6
      phase := if s.t = 63#6 then .accum else s.phase } := by
  have hwt : s.w[s.t.toNat]'s.t.isLt = some (w[s.t.toNat]'s.t.isLt) := by simp [hw]
  rw [step_busy (i := .uRound) (by rw [hp]; rfl) (by rw [hp]; rfl), exec_uRound_held hr hwt, roundsUpTo_succ]

/-- The rest of PH_ROUND, after T rounds. -/
theorem run_round (k : Nat) (hp : s.phase = .round) (hk : s.t.toNat + k = 63) (hw : s.w = held w)
    (hr : s.r = held (roundsUpTo v w s.t.toNat)) :
    core.run (k + 1) s = .next { s with r := held (rounds v w), t := 63#6, phase := .accum } := by
  induction k generalizing s with
  | zero =>
    have hlast : s.t = 63#6 := (eq_63_iff s.t).2 hk
    refine run_one.trans ((step_round hp hw hr).trans ?_)
    rw [if_pos hlast, if_pos hlast, hlast]
    rfl
  | succ k ih =>
    have hlast : s.t.toNat ≠ 63 := by omega
    have hnext := t_add_one_toNat hlast
    have hne : s.t ≠ 63#6 := fun e => hlast ((eq_63_iff s.t).1 e)
    have hstep := step_round hp hw hr
    rw [if_neg hne, if_neg hne] at hstep
    rw [run_succ_next hstep]
    refine ih hp ?_ hw ?_
    · show (s.t + 1#6).toNat + k = 63
      omega
    · show held _ = held (roundsUpTo v w (s.t + 1#6).toNat)
      rw [hnext]

/-- R123: the 65 micro-operations that compute the rounds. -/
theorem run_rounds (hp : s.phase = .winit) (ht : s.t = 63#6) (hh : s.h = held v) (hw : s.w = held w) :
    core.run 65 s = .next { s with r := held (rounds v w), t := 63#6, phase := .accum } := by
  rw [run_succ_next (step_winit hp ht hh)]
  exact run_round 63 rfl rfl hw rfl

/-! ### One block -/

section block
variable (hp : s.phase = .loadw) (ht : s.t = 0#6 ∨ s.t = 63#6) (hh : s.h = held v) (hb : s.blk = held b)
include hp ht hh hb

/-- The micro-operations of a block before U_ACCUM. -/
theorem run_to_accum :
    core.run 114 s = .next { s with
      w := held (sched b), r := held (rounds v (sched b)), t := 63#6, phase := .accum } :=
  (run_add 49 65 (run_schedule hp ht hb)).trans (run_rounds rfl rfl hh rfl)

/-- A block inside the message: back to PH_IDLE. -/
theorem run_block_inside (hfin : s.fin = 0#2) :
    core.run 115 s = .next { s with
      h := held (compress v b), w := held (sched b), r := held (rounds v (sched b)), t := 63#6, phase := .idle } := by
  refine run_snoc (run_to_accum hp ht hh hb) ?_
  rw [step_busy (i := .uAccum) rfl rfl, ← accumulate_rounds]
  exact exec_uAccum_inside hh rfl hfin

/-- The last block of the message's own bytes, with the length still to come: on to PH_PADLEN. -/
theorem run_block_lengthPending (hfin : s.fin = 1#2) :
    core.run 115 s = .next { s with
      h := held (compress v b), w := held (sched b), r := held (rounds v (sched b)), t := 63#6, phase := .padlen } := by
  refine run_snoc (run_to_accum hp ht hh hb) ?_
  rw [step_busy (i := .uAccum) rfl rfl, ← accumulate_rounds]
  exact exec_uAccum_lengthPending hh rfl hfin

/-- The last block: the digest is complete. -/
theorem run_block_last (hfin : s.fin = 2#2) :
    core.run 115 s = .next { s with
      h := held (compress v b), w := held (sched b), r := held (rounds v (sched b)), t := 63#6, phase := .idle,
      fin := 0#2, opened := false, dv := true } := by
  refine run_snoc (run_to_accum hp ht hh hb) ?_
  rw [step_busy (i := .uAccum) rfl rfl, ← accumulate_rounds]
  exact exec_uAccum_last hh rfl hfin

end block

end Sys2Proof.Machine

namespace Sys2Proof.Proofs

open Sys2Proof.Machine

/-- Settles O46: `sched_of_lt` and `sched_of_ge`, the sum of four terms as `expandWord_eq_sum` writes it. -/
theorem scheduleRecurrence : Obligations.ScheduleRecurrence := by
  intro b i
  have hi := i.isLt
  refine ⟨fun h => sched_of_lt b h, fun h16 => ⟨_, _, _, _, Vector.getElem?_eq_getElem (by omega),
    Vector.getElem?_eq_getElem (by omega), Vector.getElem?_eq_getElem (by omega), Vector.getElem?_eq_getElem (by omega), ?_⟩⟩
  rw [← expandWord_eq_sum]
  exact sched_of_ge b h16 i.isLt

/-- Settles O47: `run_schedule`, cell by cell. -/
theorem scheduleComputedIn49Steps : Obligations.ScheduleComputedIn49Steps := fun _ b hp ht hb =>
  ⟨_, run_schedule hp ht (held_of_cells hb), fun i => held_getElem (sched b) i i.isLt, rfl⟩

/-- Settles O48: `run_rounds`, cell by cell. -/
theorem roundsComputedIn65Steps : Obligations.RoundsComputedIn65Steps := fun _ v w hp ht hh hw =>
  ⟨_, run_rounds hp ht (held_of_cells hh) (held_of_cells hw), fun k => held_getElem (rounds v w) k k.isLt, rfl⟩

/-- Settles O49: one case for each value of FIN, which only says where U_ACCUM goes. -/
theorem blockCompressedIn115Steps : Obligations.BlockCompressedIn115Steps := by
  intro s v b hp ht hfin hcells hblk
  have hh : s.h = held v := held_of_cells hcells
  have hb : s.blk = held b := held_of_cells hblk
  have hcompress (k : Fin 8) := held_getElem (compress v b) k k.isLt
  rcases fin_cases_of_ne_three hfin with hfin | hfin | hfin
  · exact ⟨_, run_block_inside hp ht hh hb hfin, hcompress, rfl, rfl, rfl, rfl, rfl⟩
  · exact ⟨_, run_block_lengthPending hp ht hh hb hfin, hcompress, rfl, rfl, rfl, rfl, rfl⟩
  · exact ⟨_, run_block_last hp ht hh hb hfin, hcompress, rfl, rfl, rfl, rfl, rfl⟩

end Sys2Proof.Proofs
end

section
/-! How long the engine stays busy (45_engine.md R147): the number of steps a busy state still has, counted down by every step,
and the statement about busy episodes (O50). -/

namespace Sys2Proof.Machine

variable {s t : State}

/-- The steps that the extra padding block adds to an episode: U_PADLEN and the 115 of the block. -/
def State.paddingSteps (s : State) : Nat := if s.fin = 1#2 then 116 else 0

/-- The steps until the engine is idle, from a state that meets the invariant. -/
def State.remaining (s : State) : Nat :=
  match s.phase with
  | .idle => 0
  | .loadw => 115 + s.paddingSteps
  | .expand => 130 - s.t.toNat + s.paddingSteps
  | .winit => 66 + s.paddingSteps
  | .round => 65 - s.t.toNat + s.paddingSteps
  | .accum => 1 + s.paddingSteps
  | .padlen => 116
  | .fault => 0

theorem remaining_pos_iff : 0 < s.remaining ↔ isBusy s.phase = true := by
  have := s.t.isLt
  unfold State.remaining
  cases s.phase <;> simp [isBusy] <;> omega

theorem remaining_le (s : State) : s.remaining ≤ 246 := by
  have hpad : s.paddingSteps ≤ 116 := by unfold State.paddingSteps; split_ifs <;> omega
  unfold State.remaining
  split <;> omega

/-- A busy step counts the remaining steps down, and raises no fault. -/
theorem busy_step_remaining (hb : isBusy s.phase = true) (h : step s = .next t) :
    t.remaining + 1 = s.remaining ∧ t.phase ≠ .fault := by
  obtain ⟨i, hi, htab, hexec⟩ := busy_step_spec hb h
  cases hp : s.phase <;> rw [hp] at hi hb htab <;> cases hi
  case loadw =>
    obtain ⟨b, -, rfl⟩ := exec_uLoadw.1 hexec
    simp only [State.remaining, State.paddingSteps, hp, BitVec.toNat_ofNat]
    exact ⟨by omega, by decide⟩
  case expand =>
    obtain ⟨-, _, _, _, _, -, -, -, -, rfl⟩ := exec_uExpand.1 hexec
    by_cases hlast : s.t = 63#6
    · simp only [State.remaining, State.paddingSteps, hp, hlast, if_true, BitVec.toNat_ofNat]
      exact ⟨by omega, by decide⟩
    · have hlt := s.t.isLt
      have hne : s.t.toNat ≠ 63 := mt (eq_63_iff s.t).2 hlast
      simp only [State.remaining, State.paddingSteps, hp, hlast, if_false, t_add_one_toNat hne]
      exact ⟨by omega, by decide⟩
  case winit =>
    obtain ⟨_, -, rfl⟩ := exec_uWinit.1 hexec
    simp only [State.remaining, State.paddingSteps, hp, BitVec.toNat_ofNat]
    exact ⟨by omega, by decide⟩
  case round =>
    obtain ⟨_, _, -, -, rfl⟩ := exec_uRound.1 hexec
    by_cases hlast : s.t = 63#6
    · simp only [State.remaining, State.paddingSteps, hp, hlast, if_true, BitVec.toNat_ofNat]
      exact ⟨by omega, by decide⟩
    · have hlt := s.t.isLt
      have hne : s.t.toNat ≠ 63 := mt (eq_63_iff s.t).2 hlast
      simp only [State.remaining, State.paddingSteps, hp, hlast, if_false, t_add_one_toNat hne]
      exact ⟨by omega, by decide⟩
  case accum =>
    obtain ⟨_, _, -, -, ⟨hf, rfl⟩ | ⟨hf, rfl⟩ | ⟨hf, rfl⟩⟩ := exec_uAccum.1 hexec
    all_goals simp [State.remaining, State.paddingSteps, hp, hf]
  case padlen =>
    rw [exec_uPadlen] at hexec; cases hexec
    simp [State.remaining, State.paddingSteps, hp]

/-- A run no longer than the busy episode: the engine counts down, takes no command, raises no fault and keeps the invariant. -/
theorem run_busy (k : Nat) (hs : s.Inv) (hp : s.phase ≠ .fault) (hk : k ≤ s.remaining) :
    ∃ u, core.run k s = .next u ∧ u.Inv ∧ u.phase ≠ .fault ∧ u.remaining + k = s.remaining := by
  induction k generalizing s with
  | zero => exact ⟨s, rfl, hs, hp, rfl⟩
  | succ k ih =>
    have hb : isBusy s.phase = true := remaining_pos_iff.1 (by omega)
    obtain ⟨t, ht, hinv⟩ := step_inv hs
    obtain ⟨hcount, hfault⟩ := busy_step_remaining hb ht
    obtain ⟨u, hrun, hu, hufault, hcount'⟩ := ih hinv hfault (by omega)
    exact ⟨u, (run_succ_next ht).trans hrun, hu, hufault, by omega⟩

end Sys2Proof.Machine

namespace Sys2Proof.Proofs

open Sys2Proof.Machine

/-- Settles O50: the steps remaining from PH_LOADW are 115 or 231, and an engine with some left is busy. -/
theorem busyEpisodeEnds : Obligations.BusyEpisodeEnds := by
  intro s hs hp
  have hfault : s.phase ≠ .fault := by simp [hp]
  have hlength : (if s.fin = 1 then 231 else 115) = s.remaining := by
    by_cases hfin : s.fin = 1#2 <;> simp [State.remaining, State.paddingSteps, hp, hfin]
  rw [hlength]
  obtain ⟨t, hrun, -, htfault, hcount⟩ := run_busy s.remaining hs hfault le_rfl
  refine ⟨t, hrun, ?idle, fun k u hk hu => ?busy⟩
  case idle =>
    have hnot : ¬ isBusy t.phase = true := fun hb => by
      have := remaining_pos_iff.2 hb
      omega
    exact (idle_or_fault_of_not_busy hnot).resolve_right htfault
  case busy =>
    obtain ⟨u', hrun', -, -, hcount'⟩ := run_busy k hs hfault hk.le
    obtain rfl : u' = u := next_inj.1 (hrun'.symm.trans hu)
    exact remaining_pos_iff.1 (by omega)

end Sys2Proof.Proofs
end

section
/-! Commands with the busy episodes they start (45_engine.md R151): the two-block episode, the block a PUSH completes, the block
FINAL pads, and the statements about them (O52, O53). -/

namespace Sys2Proof.Machine

variable {s t : State} {b z : Vector Byte 64} {v : Vector Word 8}

/-- The states with register files as a block of bytes `b`, compressed from the digest `v`, leaves them. -/
def State.afterBlock (s : State) (v : Vector Word 8) (b : Vector Byte 64) : State :=
  { s with h := held (compress v b), w := held (sched b), r := held (rounds v (sched b)), blk := held b, t := 63#6 }

/-- The digest is complete: the flags and FIN as the last block's U_ACCUM leaves them. -/
def State.complete (s : State) : State := { s with fin := 0#2, opened := false, dv := true }

section episode
variable (hp : s.phase = .idle) (ht : s.t = 0#6 ∨ s.t = 63#6) (hh : s.h = held v)
include hp ht hh

/-- The episode of a block inside the message, from the state a PUSH has left. -/
theorem run_pushed (hfin : s.fin = 0#2) :
    core.run 115 { s with blk := held b, phase := .loadw } = .next (s.afterBlock v b) := by
  refine (run_block_inside (s := { s with blk := held b, phase := .loadw }) rfl ht hh rfl hfin).trans ?_
  simp [State.afterBlock, hp]

/-- The episode of the last block. -/
theorem run_finalised :
    core.run 115 { s with blk := held b, fin := 2#2, phase := .loadw } = .next (s.afterBlock v b).complete := by
  refine (run_block_last (s := { s with blk := held b, fin := 2#2, phase := .loadw }) rfl ht hh rfl rfl).trans ?_
  simp [State.afterBlock, State.complete, hp]

/-- The episode with an extra padding block: U_PADLEN stands between the two blocks. -/
theorem run_finalised_two (hz : padlenBlock s.len = held z) :
    core.run 231 { s with blk := held b, fin := 1#2, phase := .loadw } =
      .next (s.afterBlock (compress v b) z).complete := by
  have hfirst := run_block_lengthPending (s := { s with blk := held b, fin := 1#2, phase := .loadw }) rfl ht hh rfl rfl
  have hpadlen := step_busy (s := { s with
    h := held (compress v b), w := held (sched b), r := held (rounds v (sched b)), blk := held b, t := 63#6, phase := .padlen,
    fin := 1#2 }) (i := .uPadlen) rfl rfl
  rw [exec_uPadlen, hz] at hpadlen
  rw [run_add 115 116 hfirst, run_succ_next hpadlen]
  exact run_finalised (s := { s with
    h := held (compress v b), w := held (sched b), r := held (rounds v (sched b)), t := 63#6 }) hp (.inr rfl) rfl

end episode

/-! ### The blocks of PUSH and FINAL -/

/-- A PUSH that fills the block. -/
theorem exec_push_last (cp : CodePoint) (ho : s.opened = true) (hl : s.len ≠ maxBits) (hfill : s.fill.toNat = 63)
    (hblk : ∀ j : Fin 64, j.val < 63 → s.blk[j] = some b[j]) (hlast : b[63] = codeUnit cp) :
    exec (.push cp) s = .next { s with blk := held b, len := s.len + 8#64, phase := .loadw } := by
  have hset : s.blk.set s.fill.toNat (some (codeUnit cp)) s.fill.isLt = held b := by
    refine held_of_cells fun j => ?_
    rw [blk_set_fill_getElem, ← fill_toNat, hfill]
    by_cases hj : j.val = 63
    · obtain rfl : j = 63 := Fin.ext hj
      exact hlast ▸ if_pos rfl
    · rw [if_neg hj, hblk j (by omega)]
  rw [exec_push_open cp ho hl, hset, if_pos ((eq_63_iff s.fill).2 hfill)]

/-- The block FINAL leaves, with the length as a number. -/
theorem finalBlock_eq_held (hblk : ∀ j : Fin 64, j.val < s.fill.toNat → s.blk[j] = some b[j])
    (hpad : ∀ j : Fin 64, s.fill.toNat ≤ j.val → b[j] =
      if j.val = s.fill.toNat then 0x80#8
      else if s.fill.toNat ≤ 55 ∧ 56 ≤ j.val then BitVec.ofNat 8 (s.len.toNat / 2 ^ (8 * (63 - j.val)))
      else 0x00#8) : finalBlock s.blk s.fill s.len = held b := by
  refine held_of_cells fun j => ?_
  rw [finalBlock_getElem]
  by_cases hj : j.val < s.fill.toNat
  · rw [if_pos hj, hblk j hj]
  · rw [if_neg hj, hpad j (Nat.not_lt.1 hj)]
    split_ifs with hmark hlen
    · rfl
    · rw [lenByte_eq s.len j hlen.2 j.isLt]
    · rfl

theorem padlenBlock_eq_held {len : BitVec 64}
    (hz : ∀ j : Fin 64, z[j] = if j.val < 56 then 0x00#8 else BitVec.ofNat 8 (len.toNat / 2 ^ (8 * (63 - j.val)))) :
    padlenBlock len = held z := by
  refine held_of_cells fun j => ?_
  rw [padlenBlock_getElem, hz j]
  split_ifs <;> rfl

theorem afterBlock_cells (s : State) (v : Vector Word 8) (b : Vector Byte 64) :
    (∀ k : Fin 8, (s.afterBlock v b).h[k] = some (compress v b)[k]) ∧
    (∀ i : Fin 64, (s.afterBlock v b).w[i] = some (sched b)[i]) ∧
    (∀ k : Fin 8, (s.afterBlock v b).r[k] = some (rounds v (sched b))[k]) ∧
    (∀ j : Fin 64, (s.afterBlock v b).blk[j] = some b[j]) :=
  ⟨fun k => held_getElem _ k k.isLt, fun i => held_getElem _ i i.isLt, fun k => held_getElem _ k k.isLt,
    fun j => held_getElem _ j j.isLt⟩

end Sys2Proof.Machine

namespace Sys2Proof.Proofs

open Sys2Proof.Machine

/-- Settles O52: the PUSH leaves the block in BLK, and the rest is the episode of one block. -/
theorem pushCompletesBlock : Obligations.PushCompletesBlock := by
  intro cp s v b hp ht hfin ho hroom hfill hcells hblk hlast
  have hh : s.h = held v := held_of_cells hcells
  have hl : s.len ≠ maxBits := mt (eq_maxBits_iff s.len).1 hroom
  have hunit : b[63] = codeUnit cp := by
    rw [hlast, codeUnit_eq]
    exact BitVec.eq_of_toNat_eq (by simp)
  have hpush := exec_push_last cp ho hl ((fill_toNat s).trans hfill) hblk hunit
  obtain ⟨hH, hW, hR, hBLK⟩ := afterBlock_cells { s with len := s.len + 8#64 } v b
  exact ⟨_, _, hpush, run_pushed (s := { s with len := s.len + 8#64 }) hp ht hh hfin, hH, hW, hR, hBLK, rfl⟩

/-- Settles O53: FINAL leaves the padded block in BLK; one episode or the two-block episode follows by FIN. -/
theorem finalCompletesDigest : Obligations.FinalCompletesDigest := by
  intro s v b z hp ht ho hcells hblk hpad hz
  have hh : s.h = held v := held_of_cells hcells
  rw [← fill_toNat] at *
  have hb := finalBlock_eq_held hblk hpad
  refine ⟨fun hfits => ?one, fun hover => ?two⟩
  case one =>
    have hfinal := exec_final_fits ho hfits
    rw [hb] at hfinal
    obtain ⟨hH, hW, hR, hBLK⟩ := afterBlock_cells s v b
    exact ⟨_, _, hfinal, run_finalised hp ht hh, hH, hW, hR, hBLK, rfl⟩
  case two =>
    have hfinal := exec_final_overflows ho hover
    rw [hb] at hfinal
    obtain ⟨hH, hW, hR, hBLK⟩ := afterBlock_cells s (compress v b) z
    exact ⟨_, _, hfinal, run_finalised_two hp ht hh (padlenBlock_eq_held hz), hH, hW, hR, hBLK, rfl⟩

end Sys2Proof.Proofs
end

section
/-! A whole message (45_engine.md R150): what the state holds of the characters pushed so far, one character more, the padding,
and the statement about INIT, PUSH and FINAL (O57). -/

namespace Sys2Proof.Machine

variable {s t : State} {m : List Byte}

/-! ### Blocks of a message under way -/

/-- The blocks that the bytes `m` fill completely. -/
def fullBlocks (m : List Byte) : List (Vector Byte 64) := (List.range (m.length / 64)).map (blockAt m)

theorem blockAt_getElem (m : List Byte) (i : Nat) (j : Fin 64) : (blockAt m i)[j] = m.getD (64 * i + j.val) 0#8 := by
  simp [blockAt]

theorem blockAt_append_getElem {x : List Byte} {i : Nat} {j : Fin 64} (h : 64 * i + j.val < m.length) :
    (blockAt (m ++ x) i)[j] = (blockAt m i)[j] := by
  rw [blockAt_getElem, blockAt_getElem, List.getD_append _ _ _ _ h]

theorem blockAt_snoc_getElem {c : Byte} {i : Nat} {j : Fin 64} (h : 64 * i + j.val = m.length) :
    (blockAt (m ++ [c]) i)[j] = c := by
  rw [blockAt_getElem, h]
  simp

/-- More bytes leave the blocks that are full. -/
theorem map_blockAt_append (m x : List Byte) : (List.range (m.length / 64)).map (blockAt (m ++ x)) = fullBlocks m := by
  refine List.map_congr_left fun i hi => ?_
  have hi := List.mem_range.1 hi
  ext j hj : 1
  exact blockAt_append_getElem (j := ⟨j, hj⟩) (show 64 * i + j < m.length by omega)

theorem fullBlocks_snoc_inside {c : Byte} (h : m.length % 64 ≠ 63) : fullBlocks (m ++ [c]) = fullBlocks m := by
  have hcount : (m ++ [c]).length / 64 = m.length / 64 := by simp; omega
  rw [fullBlocks, hcount, map_blockAt_append]

theorem fullBlocks_snoc_last {c : Byte} (h : m.length % 64 = 63) :
    fullBlocks (m ++ [c]) = fullBlocks m ++ [blockAt (m ++ [c]) (m.length / 64)] := by
  have hcount : (m ++ [c]).length / 64 = m.length / 64 + 1 := by simp; omega
  rw [fullBlocks, hcount, List.range_succ, List.map_append, map_blockAt_append, List.map_singleton]

/-! ### The padding blocks -/

theorem exists_padBytes_eq_append (m : List Byte) : ∃ x, padBytes m = m ++ x :=
  ⟨_, List.append_assoc m _ _⟩

theorem map_blockAt_padBytes (m : List Byte) : (List.range (m.length / 64)).map (blockAt (padBytes m)) = fullBlocks m := by
  obtain ⟨x, hx⟩ := exists_padBytes_eq_append m
  rw [hx, map_blockAt_append]

theorem messageBlocks_of_le (h : m.length % 64 ≤ 55) :
    messageBlocks m = fullBlocks m ++ [blockAt (padBytes m) (m.length / 64)] := by
  rw [messageBlocks, blockCount_eq, if_pos h, List.range_succ, List.map_append, map_blockAt_padBytes, List.map_singleton]

theorem messageBlocks_of_gt (h : 56 ≤ m.length % 64) :
    messageBlocks m =
      fullBlocks m ++ [blockAt (padBytes m) (m.length / 64), blockAt (padBytes m) (m.length / 64 + 1)] := by
  rw [messageBlocks, blockCount_eq, if_neg (by omega), List.range_succ, List.range_succ, List.map_append, List.map_append,
    map_blockAt_padBytes, List.append_assoc]
  rfl

/-- The byte of the padded message at place `j` of the block that holds its end: the marker, zeros, the length if it fits. -/
theorem blockAt_padBytes_tail (m : List Byte) (j : Fin 64) (hj : m.length % 64 ≤ j.val) :
    (blockAt (padBytes m) (m.length / 64))[j] =
      if j.val = m.length % 64 then 0x80#8
      else if m.length % 64 ≤ 55 ∧ 56 ≤ j.val then lenByte (BitVec.ofNat 64 (8 * m.length)) (j.val - 56)
      else 0x00#8 := by
  have hj64 := j.isLt
  have hzeros : padZeroBytes m.length = (119 - m.length % 64) % 64 := rfl
  rw [blockAt_getElem, padBytes_getD_ge m _ (by omega)]
  by_cases hmark : j.val = m.length % 64
  · rw [if_pos (by omega), if_pos hmark]
  · rw [if_neg (by omega), if_neg hmark]
    by_cases hlen : m.length % 64 ≤ 55 ∧ 56 ≤ j.val
    · rw [if_neg (by omega), if_pos hlen, lengthBytes_getD _ _ (by omega)]
      congr 1
      omega
    · rw [if_pos (by omega), if_neg hlen]

/-- The extra block, when the length did not fit: zeros and the length. -/
theorem padlenBlock_eq_blockAt (h : 56 ≤ m.length % 64) :
    padlenBlock (BitVec.ofNat 64 (8 * m.length)) = held (blockAt (padBytes m) (m.length / 64 + 1)) := by
  refine held_of_cells fun j => ?_
  have hj := j.isLt
  have hzeros : padZeroBytes m.length = (119 - m.length % 64) % 64 := rfl
  rw [blockAt_getElem, padBytes_getD_ge m _ (by omega), if_neg (by omega), padlenBlock, Fin.getElem_fin, Vector.getElem_ofFn]
  dsimp only
  by_cases hlow : j.val < 56
  · rw [if_pos hlow, if_pos (by omega)]
  · rw [if_neg hlow, if_neg (by omega), lengthBytes_getD _ _ (by omega)]
    congr 2
    omega

/-! ### The state of a message under way -/

/-- An idle engine has absorbed the bytes `m` of an open message. -/
structure State.Absorbed (s : State) (m : List Byte) : Prop where
  phase : s.phase = .idle
  t : s.t = 0#6 ∨ s.t = 63#6
  fin : s.fin = 0#2
  opened : s.opened = true
  err : s.err = .noFault
  len : s.len.toNat = 8 * m.length
  h : s.h = held ((fullBlocks m).foldl compress h0Table)
  blk : ∀ j : Fin 64, j.val < m.length % 64 → s.blk[j] = some (blockAt m (m.length / 64))[j]

theorem absorbed_fill (hs : s.Absorbed m) : s.fill.toNat = m.length % 64 := by
  rw [fill_toNat, hs.len]
  omega

theorem absorbed_len_eq (hs : s.Absorbed m) : s.len = BitVec.ofNat 64 (8 * m.length) := by
  rw [← hs.len, BitVec.ofNat_toNat, BitVec.setWidth_eq]

/-- An engine that holds the digest of `m`, idle and without a fault. -/
structure State.HoldsDigest (s : State) (m : List Byte) : Prop where
  phase : s.phase = .idle
  fin : s.fin = 0#2
  opened : s.opened = false
  dv : s.dv = true
  err : s.err = .noFault
  len : s.len.toNat = 8 * m.length
  h : s.h = held (digestWords m)

theorem absorbed_cmdq (hs : s.Absorbed m) (q : List Word) : State.Absorbed { s with cmdq := q } m :=
  ⟨hs.phase, hs.t, hs.fin, hs.opened, hs.err, hs.len, hs.h, hs.blk⟩

/-! ### The commands of a message -/

theorem init_absorbs (hp : s.phase = .idle) (ht : s.t = 0#6 ∨ s.t = 63#6) (herr : s.err = .noFault) :
    ∃ t, exec .init s = .next t ∧ t.Absorbed [] ∧ t.cmdq = s.cmdq ∧ t.respq = s.respq :=
  ⟨_, exec_init, ⟨hp, ht, rfl, rfl, herr, rfl, rfl, fun _ hj => absurd hj (Nat.not_lt_zero _)⟩, rfl, rfl⟩

section absorbed
variable (hs : s.Absorbed m) (cp : CodePoint)
include hs

theorem absorbed_len_add (hm : m.length < 2 ^ 61 - 1) : (s.len + 8#64).toNat = 8 * (m ++ [codeUnit cp]).length := by
  have hlen := hs.len
  have hcarry : s.len.toNat + (8#64).toNat < 2 ^ 64 := by
    show s.len.toNat + 8 < 2 ^ 64
    omega
  rw [BitVec.toNat_add_of_lt hcarry, hlen, List.length_append]
  rfl

theorem absorbed_len_ne (hm : m.length < 2 ^ 61 - 1) : s.len ≠ maxBits := by
  have hlen := hs.len
  exact mt (eq_maxBits_iff s.len).1 (by omega)

/-- A PUSH that leaves room in the block. -/
theorem push_inside (hm : m.length < 2 ^ 61 - 1) (hroom : m.length % 64 ≠ 63) :
    ∃ t, exec (.push cp) s = .next t ∧ t.Absorbed (m ++ [codeUnit cp]) ∧ t.cmdq = s.cmdq ∧ t.respq = s.respq := by
  have hfill : s.fill ≠ 63#6 := mt (eq_63_iff s.fill).1 (by rwa [absorbed_fill hs])
  have hphase : (if s.fill = 63#6 then Phase.loadw else s.phase) = .idle := (if_neg hfill).trans hs.phase
  have hdiv : (m ++ [codeUnit cp]).length / 64 = m.length / 64 := by
    rw [List.length_append, List.length_singleton]
    omega
  refine ⟨_, exec_push_open cp hs.opened (absorbed_len_ne hs hm),
    ⟨hphase, hs.t, hs.fin, hs.opened, hs.err, absorbed_len_add hs cp hm, ?h, fun j hj => ?blk⟩, rfl, rfl⟩
  case h => rw [fullBlocks_snoc_inside hroom]; exact hs.h
  case blk =>
    rw [List.length_append, List.length_singleton] at hj
    rw [hdiv]
    have hplace : s.len.toNat / 8 % 64 = m.length % 64 := (fill_toNat s).symm.trans (absorbed_fill hs)
    refine (blk_set_fill_getElem s _ j).trans ?_
    rw [hplace]
    by_cases hlast : j.val = m.length % 64
    · rw [if_pos hlast, blockAt_snoc_getElem (by omega)]
    · rw [if_neg hlast, blockAt_append_getElem (by omega)]
      exact hs.blk j (by omega)

/-- A PUSH that fills the block, and its episode. -/
theorem push_last (hm : m.length < 2 ^ 61 - 1) (hlast : m.length % 64 = 63) :
    ∃ u t, exec (.push cp) s = .next u ∧ core.run 115 u = .next t ∧ t.Absorbed (m ++ [codeUnit cp]) ∧ t.cmdq = s.cmdq ∧
      t.respq = s.respq := by
  have hbytes (j : Fin 64) (hj : j.val < 63) : s.blk[j] = some (blockAt (m ++ [codeUnit cp]) (m.length / 64))[j] := by
    rw [blockAt_append_getElem (by omega)]
    exact hs.blk j (by omega)
  have hunit : (blockAt (m ++ [codeUnit cp]) (m.length / 64))[63] = codeUnit cp :=
    blockAt_snoc_getElem (j := 63) (show 64 * (m.length / 64) + 63 = m.length by omega)
  have hempty : (m ++ [codeUnit cp]).length % 64 = 0 := by
    rw [List.length_append, List.length_singleton]
    omega
  refine ⟨_, _, exec_push_last cp hs.opened (absorbed_len_ne hs hm) ((absorbed_fill hs).trans hlast) hbytes hunit,
    run_pushed (s := { s with len := s.len + 8#64 }) hs.phase hs.t hs.h hs.fin,
    ⟨hs.phase, .inr rfl, hs.fin, hs.opened, hs.err, absorbed_len_add hs cp hm, ?h, fun j hj => ?blk⟩, rfl, rfl⟩
  case h =>
    rw [fullBlocks_snoc_last hlast, List.foldl_append]
    rfl
  case blk =>
    rw [hempty] at hj
    exact absurd hj (Nat.not_lt_zero _)

/-- A PUSH with the episode it starts, if it does. -/
theorem push_absorbs (hm : m.length < 2 ^ 61 - 1) :
    ∃ u t, exec (.push cp) s = .next u ∧ core.run (115 * ((m.length + 1) / 64 - m.length / 64)) u = .next t ∧
      t.Absorbed (m ++ [codeUnit cp]) ∧ t.cmdq = s.cmdq ∧ t.respq = s.respq := by
  by_cases hlast : m.length % 64 = 63
  · have hcount : 115 * ((m.length + 1) / 64 - m.length / 64) = 115 := by omega
    rw [hcount]
    exact push_last hs cp hm hlast
  · have hcount : 115 * ((m.length + 1) / 64 - m.length / 64) = 0 := by omega
    obtain ⟨t, hpush, ht⟩ := push_inside hs cp hm hlast
    rw [hcount]
    exact ⟨t, t, hpush, rfl, ht⟩

omit cp in
/-- The block FINAL leaves is the padded message's, where its own bytes end. -/
theorem finalBlock_eq_blockAt : finalBlock s.blk s.fill s.len = held (blockAt (padBytes m) (m.length / 64)) := by
  obtain ⟨x, hx⟩ := exists_padBytes_eq_append m
  refine held_of_cells fun j => ?_
  rw [finalBlock_getElem, absorbed_fill hs]
  by_cases hj : j.val < m.length % 64
  · rw [if_pos hj, hs.blk j hj, hx, blockAt_append_getElem (by omega)]
  · rw [if_neg hj, blockAt_padBytes_tail m j (Nat.not_lt.1 hj), absorbed_len_eq hs]
    split_ifs <;> rfl

omit cp in
/-- FINAL and the episode that completes the digest. -/
theorem final_digests :
    ∃ u t, exec .final s = .next u ∧
      core.run (115 * (blockCount m.length - m.length / 64) + if 56 ≤ m.length % 64 then 1 else 0) u = .next t ∧
      t.HoldsDigest m ∧ t.cmdq = s.cmdq ∧ t.respq = s.respq := by
  have hb := finalBlock_eq_blockAt hs
  rw [blockCount_eq, Nat.add_sub_cancel_left]
  by_cases hfits : m.length % 64 ≤ 55
  case pos =>
    have hfinal := exec_final_fits hs.opened ((absorbed_fill hs).trans_le hfits)
    rw [hb] at hfinal
    rw [if_pos hfits, if_neg (by omega)]
    refine ⟨_, _, hfinal, run_finalised hs.phase hs.t hs.h, ⟨hs.phase, rfl, rfl, rfl, hs.err, hs.len, ?_⟩, rfl, rfl⟩
    rw [digestWords, messageBlocks_of_le hfits, List.foldl_append]
    rfl
  case neg =>
    have hover : 56 ≤ m.length % 64 := by omega
    have hfinal := exec_final_overflows hs.opened (hover.trans_eq (absorbed_fill hs).symm)
    have hz : padlenBlock s.len = held (blockAt (padBytes m) (m.length / 64 + 1)) := by
      rw [absorbed_len_eq hs, padlenBlock_eq_blockAt hover]
    rw [hb] at hfinal
    rw [if_neg hfits, if_pos hover]
    refine ⟨_, _, hfinal, run_finalised_two hs.phase hs.t hs.h hz, ⟨hs.phase, rfl, rfl, rfl, hs.err, hs.len, ?_⟩, rfl, rfl⟩
    rw [digestWords, messageBlocks_of_gt hover, List.foldl_append]
    rfl

end absorbed

/-! ### The words of a message -/

/-- Taking a command in PH_IDLE, and the run after it. -/
theorem run_command {w : Word} {rest : List Word} {i : Instr} {u : State} {k : Nat} (hp : s.phase = .idle)
    (hq : s.cmdq = w :: rest) (hd : decode w = .ok i) (he : exec i { s with cmdq := rest } = .next u)
    (hrun : core.run k u = .next t) : core.run (k + 1) s = .next t :=
  (run_succ_next ((step_idle_legal hp hq hd).trans he)).trans hrun

/-- PUSH of each character, with the episodes of the blocks that they fill. -/
theorem run_pushes (cs : List CodePoint) {rest : List Word} (hs : s.Absorbed m) (hm : m.length + cs.length ≤ 2 ^ 61 - 1)
    (hq : s.cmdq = cs.map (fun c => (0x20#8 ++ c : Word)) ++ rest) :
    ∃ t, core.run (cs.length + 115 * ((m.length + cs.length) / 64 - m.length / 64)) s = .next t ∧
      t.Absorbed (m ++ cs.map codeUnit) ∧ t.cmdq = rest ∧ t.respq = s.respq := by
  induction cs generalizing s m with
  | nil =>
    refine ⟨s, ?_, by simpa using hs, hq, rfl⟩
    rw [List.length_nil, Nat.add_zero, Nat.sub_self]
    rfl
  | cons c cs ih =>
    rw [List.length_cons] at hm
    obtain ⟨u, v, hpush, hrun, hv, hvcmdq, hvrespq⟩ := push_absorbs (absorbed_cmdq hs _) c (by omega)
    have hlength : (m ++ [codeUnit c]).length = m.length + 1 := List.length_append
    obtain ⟨t, hrun', ht, htcmdq, htrespq⟩ := ih hv (by omega) hvcmdq
    refine ⟨t, ?_, by simpa using ht, htcmdq, htrespq.trans hvrespq⟩
    rw [← hrun', ← run_add _ _ (run_command hs.phase hq (decode_push_word c) hpush hrun), hlength, List.length_cons]
    congr 1
    omega

/-- R150: INIT, PUSH of each character and FINAL leave the digest. -/
theorem run_message (cs : List CodePoint) {rest : List Word} (hp : s.phase = .idle) (ht : s.t = 0#6 ∨ s.t = 63#6)
    (herr : s.err = .noFault) (hn : cs.length ≤ 2 ^ 61 - 1)
    (hq : s.cmdq = 0x10000000#32 :: (cs.map (fun c => (0x20#8 ++ c : Word)) ++ 0x30000000#32 :: rest)) :
    ∃ t, core.run (cs.length + 2 + 115 * blockCount cs.length + if 56 ≤ cs.length % 64 then 1 else 0) s = .next t ∧
      t.HoldsDigest (cs.map codeUnit) ∧ t.cmdq = rest ∧ t.respq = s.respq := by
  obtain ⟨u, hinit, hu, hucmdq, hurespq⟩ := init_absorbs
    (s := { s with cmdq := cs.map (fun c => (0x20#8 ++ c : Word)) ++ 0x30000000#32 :: rest }) hp ht herr
  obtain ⟨v, hpushes, hv, hvcmdq, hvrespq⟩ := run_pushes cs hu (by simpa using hn) hucmdq
  obtain ⟨x, t, hfinal, hrun, ht, htcmdq, htrespq⟩ := final_digests (absorbed_cmdq hv rest)
  have hlast := run_command hv.phase hvcmdq decode_final_word hfinal hrun
  refine ⟨t, ?_, ht, htcmdq, htrespq.trans (hvrespq.trans hurespq)⟩
  rw [← hlast, ← run_add _ _ hpushes, ← run_add 1 _ (run_command hp hq decode_init_word hinit rfl)]
  congr 1
  have hblocks : cs.length / 64 ≤ blockCount cs.length := by unfold blockCount; omega
  simp only [List.nil_append, List.length_nil, List.length_map]
  omega

/-- The word of `push cp` as the assembler's sum and as the encoder's fields. -/
theorem push_word_eq (c : CodePoint) : 0x20000000#32 + c.setWidth 32 = (0x20#8 ++ c : Word) := by
  have hc := c.isLt
  apply BitVec.eq_of_toNat_eq
  rw [toNat_pushw, BitVec.toNat_add, BitVec.toNat_setWidth]
  simp
  omega

end Sys2Proof.Machine

namespace Sys2Proof.Proofs

open Sys2Proof.Machine

/-- Settles O57: `run_message`, the words as the encoder writes them. -/
theorem messageIsDigested : Obligations.MessageIsDigested := by
  intro s cs rest hp ht herr hn hq
  simp only [push_word_eq] at hq
  obtain ⟨t, hrun, hd, hcmdq, hrespq⟩ := run_message cs hp ht herr hn hq
  have hlen := hd.len
  rw [List.length_map] at hlen
  exact ⟨t, hrun, fun k => by rw [hd.h]; exact held_getElem _ k k.isLt, hlen, hd.opened, hd.dv, hd.err, hd.fin, hd.phase,
    hcmdq, hrespq⟩

end Sys2Proof.Proofs
end

section
/-! Runs of word lists (45_engine.md R152): a run seen as steps of the engine with all its words appended, where its end does not
depend on the interleaving; that every run ends; the run of `compute`; and the statements about runs (O51, O58, O60). -/

namespace Sys2Proof.Machine

variable {s t u : State} {r r' : Run}

/-! ### Waiting engines -/

theorem step_of_not_enabled (h : s.stepEnabled = false) : step s = .next s := by
  simp only [State.stepEnabled, Bool.or_eq_false_iff, Bool.not_eq_false', List.isEmpty_iff] at h
  obtain ⟨hb, hq⟩ := h
  have hnot : ¬ isBusy s.phase = true := by simp [hb]
  rcases idle_or_fault_of_not_busy hnot with hp | hp
  · exact step_idle_nil hp hq
  · exact step_fault_nil hp hq

theorem run_of_not_enabled (n : Nat) (h : s.stepEnabled = false) : core.run n s = .next s := by
  induction n with
  | zero => rfl
  | succ n ih => rw [run_succ_next (step_of_not_enabled h), ih]

/-- Two runs of steps from one state that have come to wait have come to the same state. -/
theorem eq_of_runs_wait {n k : Nat} (ht : core.run n s = .next t) (htw : t.stepEnabled = false)
    (hu : core.run k s = .next u) (huw : u.stepEnabled = false) : t = u := by
  have hlast : core.run (n + k) s = .next t := (run_add n k ht).trans (run_of_not_enabled k htw)
  rw [Nat.add_comm, run_add k n hu, run_of_not_enabled n huw] at hlast
  exact (next_inj.1 hlast).symm

/-! ### A run as steps of the engine with every word appended -/

/-- The engine of a run with the words still to come at the tail of CMDQ, and RESPQ as if no response of the run had been removed
from behind the words `old`. -/
def Run.whole (r : Run) (old : List Word) : State :=
  { r.engine with cmdq := r.engine.cmdq ++ r.toAppend, respq := old ++ r.responses }

theorem appendNext_whole (r : Run) (old : List Word) : r.appendNext.whole old = r.whole old := by
  obtain ⟨s, ws, resps⟩ := r
  cases ws with
  | nil => rfl
  | cons w ws => simp [Run.appendNext, Run.whole, State.appendCommand]

/-- A step that changes nothing adds no response. -/
theorem stepped_self (r : Run) : r.stepped r.engine = r := by
  simp [Run.stepped]

theorem stepped_whole (old : List Word) (he : r.engine.stepEnabled = true) (h : step r.engine = .next t) :
    step (r.whole old) = .next ((r.stepped t).whole old) := by
  obtain ⟨new, hnew, hstep⟩ := step_responses (step_append_cmdq he h r.toAppend)
  have hnew : t.respq = r.engine.respq ++ new := hnew
  have hgrown : old ++ (r.responses ++ t.respq.drop r.engine.respq.length) = old ++ r.responses ++ new := by
    rw [hnew, List.drop_left, List.append_assoc]
  refine (hstep (old ++ r.responses)).trans ?_
  rw [← hgrown]
  rfl

/-- An event of a run is a step of the engine with every word appended, or changes nothing of it. -/
theorem event_whole {e : RunEvent} (old : List Word) (h : e.apply r = .next r') :
    ∃ n, core.run n (r.whole old) = .next (r'.whole old) := by
  cases e with
  | append => cases h; exact ⟨0, by rw [appendNext_whole]; rfl⟩
  | takeResponse => cases h; exact ⟨0, rfl⟩
  | engine =>
    cases hs : step r.engine with
    | fault c => simp [RunEvent.apply, hs] at h
    | refused c => simp [RunEvent.apply, hs] at h
    | next t =>
      simp only [RunEvent.apply, hs] at h
      cases h
      cases he : r.engine.stepEnabled with
      | true => exact ⟨1, run_one.trans (stepped_whole old he hs)⟩
      | false =>
        obtain rfl : r.engine = t := next_inj.1 ((step_of_not_enabled he).symm.trans hs)
        exact ⟨0, by rw [stepped_self]; rfl⟩

theorem follow_whole (old : List Word) {es : List RunEvent} (h : r.follow es = .next r') :
    ∃ n, core.run n (r.whole old) = .next (r'.whole old) := by
  induction es generalizing r with
  | nil => cases h; exact ⟨0, rfl⟩
  | cons e es ih =>
    rcases follow_cons_inv h with ⟨-, rfl⟩ | ⟨u, he, hu⟩
    · exact ⟨0, rfl⟩
    · obtain ⟨n, hn⟩ := event_whole old he
      obtain ⟨k, hk⟩ := ih hu
      exact ⟨n + k, (run_add n k hn).trans hk⟩

theorem ended_whole (old : List Word) (h : r.ended = true) : (r.whole old).stepEnabled = false := by
  obtain ⟨happend, hq, hb⟩ := ended_iff.1 h
  simp [Run.whole, State.stepEnabled, happend, hq, hb]

/-- The whole of a run that has ended is where any steps from the whole of its start come to wait. -/
theorem whole_of_ended {old : List Word} {es : List RunEvent} {n : Nat} (h : r.follow es = .next r') (hend : r'.ended = true)
    (hu : core.run n (r.whole old) = .next u) (huw : u.stepEnabled = false) : r'.whole old = u := by
  obtain ⟨k, hk⟩ := follow_whole old h
  exact eq_of_runs_wait hk (ended_whole old hend) hu huw

/-- The ends of two runs with the same whole have the same outcome, and engines that differ in RESPQ alone. -/
theorem outcome_of_whole {old : List Word} (h : r'.whole old = r.whole old) (hr : r.ended = true) (hr' : r'.ended = true) :
    r'.outcome = r.outcome ∧ r'.engine = { r.engine with respq := r'.engine.respq } := by
  obtain ⟨-, hq, -⟩ := ended_iff.1 hr
  obtain ⟨-, hq', -⟩ := ended_iff.1 hr'
  obtain ⟨⟨⟩, ws, resps⟩ := r
  obtain ⟨⟨⟩, ws', resps'⟩ := r'
  simp only [Run.whole, State.mk.injEq, List.append_cancel_left_eq] at h hq hq'
  obtain ⟨rfl, rfl, rfl, rfl, rfl, rfl, rfl, rfl, rfl, rfl, rfl, -, rfl⟩ := h
  subst hq hq'
  exact ⟨rfl, rfl⟩

/-! ### Following the host, then the engine -/

theorem ended_of_toAppend {w : Word} {ws : List Word} (h : r.toAppend = w :: ws) : r.ended = false := by
  simp [Run.ended, h]

/-- The host appends all its words. -/
theorem follow_appends (s : State) (ws resps : List Word) :
    Run.follow (List.replicate ws.length .append) ⟨s, ws, resps⟩ = .next ⟨{ s with cmdq := s.cmdq ++ ws }, [], resps⟩ := by
  induction ws generalizing s with
  | nil => simp [Run.follow]
  | cons w ws ih =>
    rw [List.length_cons, List.replicate_succ, follow_cons _ _ (ended_of_toAppend rfl) rfl]
    refine (ih (s.appendCommand w)).trans ?_
    simp [State.appendCommand]

/-- With every word appended, engine steps that lead to a waiting state end the run. -/
theorem follow_engine (n : Nat) (happend : r.toAppend = []) (h : core.run n r.engine = .next u)
    (hu : u.stepEnabled = false) : ∃ r', r.follow (List.replicate n .engine) = .next r' ∧ r'.ended = true := by
  induction n generalizing r with
  | zero =>
    cases h
    simp only [State.stepEnabled, Bool.or_eq_false_iff, Bool.not_eq_false', List.isEmpty_iff] at hu
    exact ⟨r, rfl, ended_iff.2 ⟨happend, hu.2, hu.1⟩⟩
  | succ n ih =>
    by_cases hr : r.ended = true
    · exact ⟨r, follow_ended hr _, hr⟩
    · obtain ⟨t, ht, hrun⟩ := run_succ_inv h
      have hstep : RunEvent.engine.apply r = .next (r.stepped t) := by simp [RunEvent.apply, ht]
      rw [List.replicate_succ, follow_cons _ _ (by simpa using hr) hstep]
      exact ih happend hrun

/-- Appending every word and then taking `n` steps ends a run if the engine with every word appended waits after `n` steps. -/
theorem follow_appends_engine (n : Nat)
    (h : core.run n { r.engine with cmdq := r.engine.cmdq ++ r.toAppend } = .next u)
    (hu : u.stepEnabled = false) :
    ∃ r', r.follow (List.replicate r.toAppend.length .append ++ List.replicate n .engine) = .next r' ∧ r'.ended = true := by
  rw [follow_append _ _ (follow_appends r.engine r.toAppend r.responses)]
  exact follow_engine n rfl h hu

/-! ### Every run ends -/

/-- More than the steps a state still has: an episode is shorter than 247 steps, and each word can start one. -/
def State.stepBudget (s : State) : Nat := 247 * s.cmdq.length + s.remaining

/-- An enabled step uses up budget: a busy step counts down, any other takes a word. -/
theorem step_budget (he : s.stepEnabled = true) (h : step s = .next t) : t.stepBudget < s.stepBudget := by
  unfold State.stepBudget
  have hle := remaining_le t
  by_cases hb : isBusy s.phase = true
  · obtain ⟨hcount, -⟩ := busy_step_remaining hb h
    obtain ⟨i, -, -, hexec⟩ := busy_step_spec hb h
    rw [exec_keeps_cmdq hexec]
    omega
  · rcases Proofs.commandsTakenFromHead s t h with ⟨-, hb' | hq⟩ | ⟨w, hq, -⟩
    · exact absurd hb' hb
    · simp [State.stepEnabled, hb, hq] at he
    · rw [hq, List.length_cons]
      omega

/-- From a state that meets the invariant the engine comes to wait. -/
theorem run_waits (hs : s.Inv) : ∃ n u, core.run n s = .next u ∧ u.stepEnabled = false := by
  induction hk : s.stepBudget using Nat.strong_induction_on generalizing s with
  | _ k ih =>
    cases he : s.stepEnabled with
    | false => exact ⟨0, s, rfl, he⟩
    | true =>
      obtain ⟨t, ht, hinv⟩ := step_inv hs
      obtain ⟨n, u, hrun, hu⟩ := ih t.stepBudget (hk ▸ step_budget he ht) hinv rfl
      exact ⟨n + 1, u, (run_succ_next ht).trans hrun, hu⟩

theorem runEvent_inv (hr : r.engine.Inv) (e : RunEvent) : ∃ r', e.apply r = .next r' ∧ r'.engine.Inv := by
  cases e with
  | append =>
    refine ⟨_, rfl, ?_⟩
    obtain ⟨s, ws, resps⟩ := r
    cases ws with
    | nil => exact hr
    | cons w ws => exact inv_streams hr (s.cmdq ++ [w]) s.respq
  | takeResponse => exact ⟨_, rfl, inv_streams hr r.engine.cmdq r.engine.respq.tail⟩
  | engine =>
    obtain ⟨t, ht, hinv⟩ := step_inv hr
    exact ⟨r.stepped t, by simp [RunEvent.apply, ht], hinv⟩

theorem follow_inv (hr : r.engine.Inv) (es : List RunEvent) : ∃ r', r.follow es = .next r' ∧ r'.engine.Inv := by
  induction es generalizing r with
  | nil => exact ⟨r, rfl, hr⟩
  | cons e es ih =>
    by_cases hend : r.ended = true
    · exact ⟨r, follow_ended hend _, hr⟩
    · obtain ⟨u, hu, hinv⟩ := runEvent_inv hr e
      rw [follow_cons e es (by simpa using hend) hu]
      exact ih hinv

/-! ### The run of `compute` -/

theorem holdsDigest_streams {m : List Byte} (hs : s.HoldsDigest m) (q r : List Word) :
    State.HoldsDigest { s with cmdq := q, respq := r } m := ⟨hs.phase, hs.fin, hs.opened, hs.dv, hs.err, hs.len, hs.h⟩

theorem exec_rdhex_digest {m : List Byte} (hs : s.HoldsDigest m) (i : BitVec 6) :
    exec (.rdhex i) s = .next (s.respond ((digestChar (digestWords m) i).setWidth 32)) := by
  have hcell : s.h[(hexWordIndex i).toNat]'(hexWordIndex i).isLt =
      some ((digestWords m)[(hexWordIndex i).toNat]'(hexWordIndex i).isLt) := by simp [hs.h]
  exact (exec_rdhex_valid i hs.dv).2 ⟨_, hcell, rfl⟩

/-- RDHEX of each position of `is`, from a state that holds a digest. -/
theorem run_rdhexes (is : List (BitVec 6)) {m : List Byte} (hs : s.HoldsDigest m)
    (hq : s.cmdq = is.map fun i => (0x1400000#26 ++ i : Word)) :
    core.run is.length s = .next { s with
      cmdq := []
      respq := s.respq ++ is.map fun i => (digestChar (digestWords m) i).setWidth 32 } := by
  induction is generalizing s with
  | nil =>
    have hs' : s = { s with cmdq := [] } := by rw [← show s.cmdq = [] from hq]
    rw [List.map_nil, List.append_nil]
    exact congrArg Host.Outcome.next hs'
  | cons i is ih =>
    have hexec := exec_rdhex_digest (holdsDigest_streams hs (is.map fun i => (0x1400000#26 ++ i : Word)) s.respq) i
    refine (run_command hs.phase hq (decode_rdhex_word i) hexec (ih (holdsDigest_streams hs _ _) rfl)).trans ?_
    simp

/-- The words of `compute`, as the encoder writes them. -/
theorem compute_expand {cps : List Nat} (h : (AsmLine.compute cps).wellFormed = true) :
    (AsmLine.compute cps).expand = 0x10000000#32 ::
      ((cps.map (BitVec.ofNat 24)).map (fun c => (0x20#8 ++ c : Word)) ++
        0x30000000#32 :: ((List.range 64).map (BitVec.ofNat 6)).map fun i => (0x1400000#26 ++ i : Word)) := by
  have hrange : ∀ c ∈ cps, c < 2 ^ 24 := by simpa [AsmLine.wellFormed] using h
  have hpush : cps.map pushWord = (cps.map (BitVec.ofNat 24)).map (fun c => (0x20#8 ++ c : Word)) := by
    rw [List.map_map]
    exact List.map_congr_left fun c hc => pushWord_eq (hrange c hc)
  have hrdhex : (List.range 64).map rdhexWord =
      ((List.range 64).map (BitVec.ofNat 6)).map fun i => (0x1400000#26 ++ i : Word) := by
    rw [List.map_map]
    exact List.map_congr_left fun i hi => rdhexWord_eq (List.mem_range.1 hi)
  rw [AsmLine.expand, hpush, hrdhex, List.cons_append]

theorem codeUnits_eq (cps : List Nat) :
    (cps.map (BitVec.ofNat 24)).map codeUnit = cps.map fun c => BitVec.ofNat 8 c := by
  rw [List.map_map]
  refine List.map_congr_left fun c _ => BitVec.eq_of_toNat_eq ?_
  rw [Function.comp_apply, codeUnit_eq]
  simp

theorem assemble_eq_some {l : AsmLine} {ws : List Word} (h : l.assemble = some ws) : l.wellFormed = true ∧ ws = l.expand := by
  unfold AsmLine.assemble at h
  split_ifs at h with hw
  exact ⟨hw, (Option.some.inj h).symm⟩

/-- The steps of `compute` from an idle engine: they come to wait with the digest held and its characters in RESPQ. -/
theorem run_compute {cps : List Nat} {ws : List Word} (hp : s.phase = .idle) (ht : s.t = 0#6 ∨ s.t = 63#6)
    (herr : s.err = .noFault) (hn : cps.length ≤ 2 ^ 61 - 1) (hws : (AsmLine.compute cps).assemble = some ws)
    (hq : s.cmdq = ws) :
    ∃ n u, core.run n s = .next u ∧ u.HoldsDigest (cps.map fun c => BitVec.ofNat 8 c) ∧ u.cmdq = [] ∧
      u.respq = s.respq ++ (computeDigest (cps.map fun c => BitVec.ofNat 8 c)).map (fun c => c.setWidth 32) := by
  obtain ⟨hwf, rfl⟩ := assemble_eq_some hws
  rw [compute_expand hwf] at hq
  obtain ⟨t, hrun, hd, hcmdq, hrespq⟩ := run_message (cps.map (BitVec.ofNat 24)) hp ht herr (by simpa using hn) hq
  rw [codeUnits_eq] at hd
  refine ⟨_, _, (run_add _ _ hrun).trans (run_rdhexes _ hd hcmdq), holdsDigest_streams hd _ _, rfl, ?_⟩
  rw [hrespq, computeDigest, List.map_map, List.map_map]
  rfl

theorem not_enabled_of_idle (hp : s.phase = .idle) (hq : s.cmdq = []) : s.stepEnabled = false := by
  simp [State.stepEnabled, hp, hq, isBusy]

end Sys2Proof.Machine

namespace Sys2Proof.Proofs

open Sys2Proof.Machine

/-- Settles O51: no event of a run meets a model fault, and the budget of steps bounds what the engine still does once the host has
appended its words. -/
theorem everyRunEnds : Obligations.EveryRunEnds := by
  intro s ws es hs
  obtain ⟨r, hr, hinv⟩ := follow_inv (r := Run.start s ws) hs es
  obtain ⟨n, u, hrun, hu⟩ := run_waits (inv_streams hinv (r.engine.cmdq ++ r.toAppend) r.engine.respq)
  obtain ⟨r', hr', hend⟩ := follow_appends_engine n hrun hu
  exact ⟨r, hr, n, r', hr', hend⟩

/-- Settles O60: both ends are where the engine with every word appended comes to wait. -/
theorem runOutcomeUnique : Obligations.RunOutcomeUnique := by
  intro s ws es es' r r' h hend h' hend'
  obtain ⟨n, hn⟩ := follow_whole s.respq h
  exact outcome_of_whole (whole_of_ended h' hend' hn (ended_whole s.respq hend)) hend hend'

/-- Settles O58: the steps of `run_compute` end one run, and every run ends in the same whole state. -/
theorem computeAnswersDigestString : Obligations.ComputeAnswersDigestString := by
  intro s cps ws hp ht herr hq hn hws
  obtain ⟨n, u, hrun, hd, hcmdq, hrespq⟩ := run_compute (s := { s with cmdq := ws }) hp ht herr hn hws rfl
  have hwait : u.stepEnabled = false := not_enabled_of_idle hd.phase hcmdq
  have hstart : (Run.start s ws).whole s.respq = { s with cmdq := ws } := by simp [Run.whole, Run.start, hq]
  refine ⟨?some, fun es r h hend => ?every⟩
  case some =>
    obtain ⟨r, hr, hend⟩ := follow_appends_engine (r := Run.start s ws) n (by simpa [Run.start, hq] using hrun) hwait
    exact ⟨_, r, hr, hend⟩
  case every =>
    obtain rfl := whole_of_ended h hend (hstart ▸ hrun) hwait
    have herr' : r.engine.err = .noFault := hd.err
    have hphase : r.engine.phase = .idle := hd.phase
    have hdv : r.engine.dv = true := hd.dv
    have hresponses := List.append_cancel_left hrespq
    refine ⟨by simp [Run.endedWell, hend, herr'], ?_⟩
    rw [Run.outcome, hresponses]
    simp [State.busyLine, State.dvLine, State.errLine, hphase, hdv, herr', isBusy]

end Sys2Proof.Proofs
end
